-- ==== Sys2Proof/Word.lean ====
section
/-! DEFINITION. The machine word and the multi-word register (00_scope.md R5, R10). -/

namespace Sys2Proof

/-- A word is 32 bits (R5). -/
abbrev Word := BitVec 32

/-- The words `w[0] .. w[W-1]` of an operand or result register, index 0 first and least significant (R10).
That a register has exactly W of them is the invariant `Block.Wf` of Safety.lean. -/
abbrev Bank := List Word

end Sys2Proof
end

