-- ==== Sys2Proof/Config.lean ====
section
/-! DEFINITION. The parameters of one implementation (00_scope.md R6, R7) and the free values: what the
spec leaves unspecified, as constants without a body, so that nothing can be proved about them. -/

namespace Sys2Proof

/-- The parameters fixed when an instance is built: the word count W (R6) and the base address BASE (R7).
They are not state of the block (R46); the model carries them beside it, unchanged by every step. -/
structure Params where
  words : Nat
  base  : Nat
deriving DecidableEq, Repr

/-- W = 2, the default of R6. BASE = 0 is a DESIGN CHOICE (log 1): R7 leaves it open. -/
def Params.default : Params := { words := 2, base := 0 }

namespace Config

/-- FREE VALUE (10_state.md R42 to R44, R47; P5): word `slot` of the hidden working registers at draw `draw`. -/
opaque freeWord (draw slot : Nat) : Word

/-- FREE VALUE (R42, R47; P5): the divider's iteration count at draw `draw`, before it is brought into R42's range. -/
opaque freeCount (draw : Nat) : Nat

end Config

end Sys2Proof
end

