-- ==== Sys2Proof/Syntax.lean ====
section
/-! DEFINITION. The commands of the block: one constructor per row of spec/opcode_table.json (30_encoding.md R101). -/

namespace Sys2Proof

/-- A command names no operand (R102): it reads fixed operand registers in the roles of 10_state.md R33. -/
inductive Instr where
  /-- ADD, 42_add_sub_mul.md R200. -/
  | add
  /-- SUB, 42_add_sub_mul.md R203. -/
  | sub
  /-- MUL, 42_add_sub_mul.md R206. -/
  | mul
  /-- DIVMOD, 43_divmod.md R230. -/
  | divmod
  /-- MODEXP, 44_modexp.md R260. -/
  | modexp
deriving DecidableEq, Repr

end Sys2Proof
end

