-- ==== Sys2Proof/WellFormed.lean ====
section
/-! DEFINITION. What a well-formed instance and a well-formed instruction are. -/

namespace Sys2Proof

/-- 1 <= W (00_scope.md R6). -/
def Params.wordsPositive (p : Params) : Bool := decide (1 ≤ p.words)

/-- W <= 1024 (R6). -/
def Params.wordsInBank (p : Params) : Bool := decide (p.words ≤ 1024)

/-- BASE mod 0x8000 = 0 (R7). -/
def Params.baseAligned (p : Params) : Bool := decide (p.base % 0x8000 = 0)

/-- The parameter values the spec supports (R6, R7). -/
def Params.wellFormed (p : Params) : Bool := p.wordsPositive && p.wordsInBank && p.baseAligned

/-- Every instruction is well formed: a command has no operand, immediate or mode that could be out of range
(30_encoding.md R100, R102). The match is spelt out so that a new constructor must say what it needs. -/
def Instr.wellFormed : Instr → Bool
  | .add => true
  | .sub => true
  | .mul => true
  | .divmod => true
  | .modexp => true

end Sys2Proof
end

