-- ==== Sys2Proof/Decode.lean ====
section
/-! DEFINITION. The decoder of the command word, total on all 2^32 words, and the encoder (30_encoding.md R100 to R105). -/

namespace Sys2Proof

/-- OP, bits 3:0 of the command word (R100). -/
def opField (v : Word) : BitVec 4 := v.extractLsb' 0 4

/-- RSVD, bits 31:4 of the command word (R100). -/
def rsvdField (v : Word) : BitVec 28 := v.extractLsb' 4 28

/-- Why a word is illegal (R103). Both reasons are R104's one answer ILLEGAL and end in the same error code. -/
inductive Illegal where
  /-- RSVD is not 0, whatever OP is. -/
  | reservedBits (rsvd : BitVec 28)
  /-- OP is 0x0 or in 0x6..0xF. -/
  | opcode (op : BitVec 4)
deriving DecidableEq, Repr

/-- The opcode map of R101. -/
def decodeOp (op : BitVec 4) : Option Instr :=
  match op.toNat with
  | 0x1 => some .add
  | 0x2 => some .sub
  | 0x3 => some .mul
  | 0x4 => some .divmod
  | 0x5 => some .modexp
  | _ => none

/-- The decoder of R104: RSVD is tested before OP. -/
def decode (v : Word) : Except Illegal Instr :=
  if rsvdField v ≠ 0 then .error (.reservedBits (rsvdField v))
  else
    match decodeOp (opField v) with
    | some i => .ok i
    | none => .error (.opcode (opField v))

/-- OP of each command (R101). -/
def opcodeOf : Instr → BitVec 4
  | .add => 0x1
  | .sub => 0x2
  | .mul => 0x3
  | .divmod => 0x4
  | .modexp => 0x5

/-- The command word of each command: OP in bits 3:0 and RSVD = 0 above it (R100, R101). -/
def encode (i : Instr) : Word := (0 : BitVec 28) ++ opcodeOf i

/-- The instruction of an opcode-table row. The block has no bytes to lay out: the word is the 32-bit data of one
CMD write, and bus data bit j is command-word bit j (20_memory.md R78). Bits from `nbits` up are 0, and a value that
does not fit the 32-bit command word is no command word. -/
def decodeTableWord (nbits w : Nat) : Option Instr :=
  let bits := w % 2 ^ nbits
  if bits < 2 ^ 32 then
    match decode (BitVec.ofNat 32 bits) with
    | .ok i => some i
    | .error _ => none
  else none

end Sys2Proof
end

