-- ==== Sys2Proof/Machine/State.lean ====
section
/-! DEFINITION. The state of the block (10_state.md), the bus beside it, and the state after reset (R47). -/

namespace Sys2Proof.Machine

/-- Nothing stops the block: a command error is a code in STATUS.ERR and a bus error is a response to one access
(60_exceptions.md R300, R302), and both go on. No constructor, so no step can answer a fault. -/
inductive Fault where
deriving DecidableEq, Repr

/-- What the model gives no meaning to. -/
inductive Refusal where
  /-- Raised by an arm of `exec` for an instruction without a meaning; no arm does. Safe. -/
  | notModelled (mnemonic : String)
  /-- Raised by `step` when W is outside 1..1024: "Values outside 1..1024 are refused (not modelled)" (D2, R6). Safe. -/
  | unsupportedWidth (words : Nat)
  /-- Raised by `step` when BASE is not a multiple of 0x8000: R7 requires it. Safe. -/
  | misalignedBase (base : Nat)
deriving DecidableEq, Repr

/-- The sequencer state SEQ (R30). -/
inductive Seq where
  | idle
  | busy
deriving DecidableEq, Repr

/-- The error a command can end with (60_exceptions.md R300); its code is `CmdError.code` of Flags.lean. -/
inductive CmdError where
  /-- ILLEGAL_CMD: the accepted command word is illegal (30_encoding.md R103). -/
  | illegalCmd
  /-- DIV_BY_ZERO: DIVMOD with OPB = 0, or MODEXP with OPC = 0 and OPB not 0 (R230, R260). -/
  | divByZero
deriving DecidableEq, Repr

/-- What a command computes (40_sequencer.md R142): an error, or the values of the result registers it writes
(`none`: the register is unchanged, 10_state.md R34). -/
inductive CmdResult where
  | ok (res0 res1 : Option Bank)
  | error (e : CmdError)
deriving DecidableEq, Repr

/-- The divider's working registers (R42). -/
structure DivRegs where
  rem : Bank
  quo : Bank
  c   : Bank
  e   : Bank
  r   : Bank
  bd  : Nat
deriving DecidableEq, Repr

/-- The exponentiation engine's working registers (R43). -/
structure ExpRegs where
  acc : Bank
  bs  : Bank
  ex  : Bank
  m   : Bank
deriving DecidableEq, Repr

/-- The multiplier's product accumulator and carry (R44). -/
structure MulRegs where
  acc   : Bank
  carry : Word
deriving DecidableEq, Repr

/-- The hidden state (R42 to R44): no register of the map returns it (R45). -/
structure Hidden where
  div : DivRegs
  exp : ExpRegs
  mul : MulRegs
deriving DecidableEq, Repr

/-- Every piece of state the spec gives the block (10_state.md R30 to R44). STATUS.BUSY is `seq`, CONFIG is a
constant read of W, and IRQ is a function of `done` and `doneIE`: none of the three is stored. -/
structure Block where
  /-- SEQ, R30. -/
  seq     : Seq
  /-- OPA, R31. -/
  opa     : Bank
  /-- OPB, R31. -/
  opb     : Bank
  /-- OPC, R31. -/
  opc     : Bank
  /-- RES0, R32. -/
  res0    : Bank
  /-- RES1, R32. -/
  res1    : Bank
  /-- CMD_LAST, R35. -/
  cmdLast : Word
  /-- PEND, R41. -/
  pend    : Word
  /-- STATUS.DONE, R36. -/
  done    : Bool
  /-- STATUS.OVR, R36. -/
  ovr     : Bool
  /-- STATUS.ERR, R36. -/
  err     : BitVec 4
  /-- IRQEN.DONEIE, R38. -/
  doneIE  : Bool
  /-- The working registers, R42 to R44. -/
  hidden  : Hidden
deriving DecidableEq, Repr

/-- The registers of the map, 20_memory.md R72. -/
inductive Reg where
  | cmd
  | status
  | config
  | irqen
  | opa (i : Nat)
  | opb (i : Nat)
  | opc (i : Nat)
  | res0 (i : Nat)
  | res1 (i : Nat)
deriving DecidableEq, Repr

/-- Read or write (R73); a write carries the 32 bits of bus data. -/
inductive AccessKind where
  | read
  | write (v : Word)
deriving DecidableEq, Repr

/-- One host bus access (R70, R73): which master issues it, whether it reads or writes, its bus address
(BASE + offset, 00_scope.md R7) and its width in bytes. -/
structure Access where
  master : Nat
  kind   : AccessKind
  addr   : Nat
  width  : Nat
deriving DecidableEq, Repr

/-- How an access is answered: a read's data (R75), a write's normal response (R74, R76, R145), or a bus error (R77). -/
inductive Response where
  | data (v : Word)
  | ack
  | busError (addr : Nat)
deriving DecidableEq, Repr

/-- Who moves next (20_memory.md R82, 70_reset_and_hazards.md R330): a host with one access, the sequencer with a
completion, or the reset input. DESIGN CHOICE, log 2: the open latency and order are this schedule. -/
inductive Turn where
  | access (a : Access)
  | sequencer
  | reset
deriving DecidableEq, Repr

/-- The machine: the parameters, the block, and the bus beside it. `turns`, `responses` and `draws` are the
model's own (log 2, 3, 4). -/
structure State where
  /-- W and BASE; no step changes them (R46). -/
  cfg       : Params
  /-- The block. -/
  blk       : Block
  /-- The moves still to come, oldest first. -/
  turns     : List Turn
  /-- The answers given so far, latest first, each with the master it goes to. -/
  responses : List (Nat × Response)
  /-- How many free values have been drawn. -/
  draws     : Nat
deriving DecidableEq, Repr

/-- An N-bit register of zeros. -/
def zeroBank (words : Nat) : Bank := List.replicate words 0

/-- DESIGN CHOICE (log 4): R47 leaves the working registers unspecified, and the first state after reset has to be a
literal; no rule reads the value. -/
def Hidden.reset (words : Nat) : Hidden :=
  let z := zeroBank words
  { div := { rem := z, quo := z, c := z, e := z, r := z, bd := 0 }
    exp := { acc := z, bs := z, ex := z, m := z }
    mul := { acc := z, carry := 0 } }

/-- The reset values of R47, with the given working registers. -/
def Block.reset (words : Nat) (h : Hidden) : Block :=
  let z := zeroBank words
  { seq := .idle, opa := z, opb := z, opc := z, res0 := z, res1 := z, cmdLast := 0, pend := 0
    done := false, ovr := false, err := 0, doneIE := false, hidden := h }

/-- The machine right after reset for the given parameters, with nothing scheduled. -/
def State.resetWith (p : Params) : State :=
  { cfg := p, blk := Block.reset p.words (Hidden.reset p.words), turns := [], responses := [], draws := 0 }

/-- The machine right after reset (R47) with R6's default W = 2. -/
def State.reset : State := State.resetWith Params.default

end Sys2Proof.Machine
end

