-- ==== Sys2Proof/Machine/Datapath.lean ====
section
/-! DEFINITION. Values of registers (00_scope.md R10) and the internal datapath functions (41_primitives.md).
Each function takes registers of one width; the width of its result is that of its first argument. -/

namespace Sys2Proof.Machine

/-- `val(R)`, the sum of `w[i] * 2^(32*i)` (R10). -/
def val : Bank → Nat
  | [] => 0
  | w :: ws => w.toNat + 2 ^ 32 * val ws

/-- N, the number of bits of a register (R6). -/
def bits (a : Bank) : Nat := 32 * a.length

/-- `word(v, i) = v[32*i+31 : 32*i]` (R10). -/
def word (v i : Nat) : Word := BitVec.ofNat 32 (v / 2 ^ (32 * i))

/-- The register of `words` words that `v` is written to: `w[i]` is `word(v, i)` (R10). -/
def ofVal (words v : Nat) : Bank := (List.range words).map (word v)

/-- EQ, R170: equal word for word. -/
def eqw (a b : Bank) : Bool := decide (a = b)

/-- NE, R170. -/
def neqw (a b : Bank) : Bool := !eqw a b

/-- The comparison behind LT, R171: the most significant differing word decides. -/
def cmpw : Bank → Bank → Ordering
  | a :: as, b :: bs =>
    match cmpw as bs with
    | .eq => compare a.toNat b.toNat
    | decided => decided
  | _, _ => .eq

/-- LT, R171. -/
def ltw (a b : Bank) : Bool := cmpw a b == .lt

/-- GT, R171. -/
def gtw (a b : Bank) : Bool := ltw b a

/-- clz32, R172, for a nonzero word: 31 minus the index of its highest 1 bit. R172 gives no value at 0, and `bitlen`
asks for none (log 7). -/
def clz32 (x : Word) : Nat := 31 - x.toNat.log2

/-- BITLEN, R173: the highest nonzero word, at index i, gives `i*32 + (32 - clz32)`; 0 when every word is 0. -/
def bitlen : Bank → Nat
  | [] => 0
  | w :: ws =>
    let above := bitlen ws
    if above ≠ 0 then above + 32
    else if w ≠ 0 then 32 - clz32 w
    else 0

/-- ODD, R174: bit 0 of word 0. -/
def oddw : Bank → Bool
  | [] => false
  | w :: _ => w.getLsbD 0

/-- EVEN, R174. -/
def evenw (a : Bank) : Bool := !oddw a

/-- SHL, R175. -/
def shl (a : Bank) (k : Nat) : Bank :=
  if bits a ≤ k then ofVal a.length 0
  else ofVal a.length (val a * 2 ^ k % 2 ^ bits a)

/-- SHR, R176. -/
def shr (a : Bank) (k : Nat) : Bank :=
  if bits a ≤ k then ofVal a.length 0
  else ofVal a.length (val a / 2 ^ k)

/-- Word `i` of a register for a possibly out-of-range index, 0 outside 0..W-1: the `a.w[..] if .. else 0` of R175, R176. -/
def wordOrZero (a : Bank) (i : Int) : Nat :=
  if 0 ≤ i ∧ i < a.length then (a.getD i.toNat 0).toNat else 0

/-- The word-level form of SHL in R175: q whole words and s bits. -/
def shlWords (a : Bank) (k : Nat) : Bank :=
  let q : Int := (k / 32 : Nat)
  let s := k % 32
  (List.range a.length).map fun (i : Nat) =>
    let hi := wordOrZero a (i - q)
    let lo := wordOrZero a (i - q - 1)
    BitVec.ofNat 32 (hi * 2 ^ s % 2 ^ 32 + if s = 0 then 0 else lo / 2 ^ (32 - s))

/-- The word-level form of SHR in R176. -/
def shrWords (a : Bank) (k : Nat) : Bank :=
  let q : Int := (k / 32 : Nat)
  let s := k % 32
  (List.range a.length).map fun (i : Nat) =>
    let lo := wordOrZero a (i + q)
    let hi := wordOrZero a (i + q + 1)
    BitVec.ofNat 32 (lo / 2 ^ s + if s = 0 then 0 else hi * 2 ^ (32 - s) % 2 ^ 32)

/-- The ripple of ADDW, R177, from a carry in: `t[31:0]` stays, `t[32]` goes on. -/
def addRipple : Bank → Bank → Nat → Bank
  | a :: as, b :: bs, carry =>
    let t := a.toNat + b.toNat + carry
    BitVec.ofNat 32 t :: addRipple as bs (t / 2 ^ 32)
  | _, _, _ => []

/-- ADDW, R177. The carry out of the top word is discarded. -/
def addw (a b : Bank) : Bank := addRipple a b 0

/-- The ripple of SUBW, R178, from a borrow in. -/
def subRipple : Bank → Bank → Nat → Bank
  | a :: as, b :: bs, borrow =>
    let t : Int := a.toNat - b.toNat - borrow
    if t < 0 then BitVec.ofNat 32 (t + 2 ^ 32).toNat :: subRipple as bs 1
    else BitVec.ofNat 32 t.toNat :: subRipple as bs 0
  | _, _, _ => []

/-- SUBW, R178. The borrow out of the top word is discarded. -/
def subw (a b : Bank) : Bank := subRipple a b 0

/-- One row of MULW, R179, for the word `x = a.w[i]`: `b.w[0..]` times `x` is added to the accumulator words from
index i up, as far as they go (targets up to W-1), and the carry beyond them is discarded. -/
def mulRow (x : Word) : Bank → Bank → Nat → Bank
  | b :: bs, res :: rest, carry =>
    let t := x.toNat * b.toNat + res.toNat + carry
    BitVec.ofNat 32 t :: mulRow x bs rest (t / 2 ^ 32)
  | _, rest, _ => rest

/-- The rows of MULW, R179, from index i up: `as` are the words `a.w[i..]` and `acc` the accumulator words from index
i up. Later rows do not touch the lowest of them, so it is finished after its own row. -/
def mulRows : Bank → Bank → Bank → Bank
  | [], _, acc => acc
  | x :: as, b, acc =>
    match mulRow x b acc 0 with
    | [] => []
    | low :: rest => low :: mulRows as b rest

/-- MULW, R179: product accumulation into W words of zeros. -/
def mulw (a b : Bank) : Bank := mulRows a b (zeroBank a.length)

end Sys2Proof.Machine
end

