-- ==== Sys2Proof/Machine/Operands.lean ====
section
/-! DEFINITION. The register map and the operand forms: which register an access names (20_memory.md R72, R73), and
which registers a command reads in which role (10_state.md R33). -/

namespace Sys2Proof.Machine

/-- The map of R72 for W words: the register at a byte offset, none where the offset is unmapped. In the banks the
bank number is `offset div 0x1000` and the word index `(offset mod 0x1000) div 4` (D4). -/
def mapOffset (words off : Nat) : Option Reg :=
  if off % 4 ≠ 0 then none
  else
    let i := off % 0x1000 / 4
    match off / 0x1000 with
    | 0 =>
      match off with
      | 0x0000 => some .cmd
      | 0x0004 => some .status
      | 0x0008 => some .config
      | 0x000C => some .irqen
      | _ => none
    | 1 => if i < words then some (.opa i) else none
    | 2 => if i < words then some (.opb i) else none
    | 3 => if i < words then some (.opc i) else none
    | 4 => if i < words then some (.res0 i) else none
    | 5 => if i < words then some (.res1 i) else none
    | _ => none

/-- The byte offset R72 gives a register. -/
def offsetOf : Reg → Nat
  | .cmd => 0x0000
  | .status => 0x0004
  | .config => 0x0008
  | .irqen => 0x000C
  | .opa i => 0x1000 + 4 * i
  | .opb i => 0x2000 + 4 * i
  | .opc i => 0x3000 + 4 * i
  | .res0 i => 0x4000 + 4 * i
  | .res1 i => 0x5000 + 4 * i

/-- Whether a block of W words has the register (R72: i ranges over 0..W-1). -/
def regExists (words : Nat) : Reg → Bool
  | .cmd | .status | .config | .irqen => true
  | .opa i | .opb i | .opc i | .res0 i | .res1 i => decide (i < words)

/-- The offset of a bus address in the window, 00_scope.md R7. An address below BASE has none (log 6). -/
def offsetIn (p : Params) (addr : Nat) : Option Nat :=
  if p.base ≤ addr then some (addr - p.base) else none

/-- The access decode of R73: the register a mapped, aligned, 4-byte access reaches; none is a bus error. -/
def accessReg (p : Params) (a : Access) : Option Reg :=
  if a.width ≠ 4 then none
  else
    match offsetIn p a.addr with
    | none => none
    | some off =>
      if off % 4 ≠ 0 then none
      else mapOffset p.words off

/-- `a`: augend, minuend, multiplicand, dividend, base (R33). -/
def operandA (s : State) : Bank := s.blk.opa

/-- `b`: addend, subtrahend, multiplier, divisor, exponent (R33). -/
def operandB (s : State) : Bank := s.blk.opb

/-- The modulus of MODEXP; no other command reads OPC (R33). -/
def operandC (s : State) : Bank := s.blk.opc

end Sys2Proof.Machine
end

