-- ==== Sys2Proof/Machine/Flags.lean ====
section
/-! DEFINITION. The status word, the error codes, the interrupt (10_state.md R36 to R39, 60_exceptions.md R300, R303).
The block has no arithmetic flag (R40): no carry, borrow, overflow, zero, sign or parity is recorded anywhere. -/

namespace Sys2Proof.Machine

/-- STATUS.BUSY: 1 exactly when SEQ = BUSY (R30, R36). -/
def isBusy (b : Block) : Bool := b.seq == .busy

/-- The code of each error (R300). Code 0 is NONE; 3 to 15 are never produced. -/
def CmdError.code : CmdError → BitVec 4
  | .illegalCmd => 1
  | .divByZero => 2

/-- The 32 bits of a STATUS read, R36: BUSY 0, DONE 1, OVR 2, ERR 7:4, every other bit 0. -/
def statusWord (b : Block) : Word :=
  (0 : BitVec 24) ++ b.err ++ (0 : BitVec 1) ++ BitVec.ofBool b.ovr ++ BitVec.ofBool b.done ++ BitVec.ofBool (isBusy b)

/-- A STATUS write, R36: a 1 in bit 1 clears DONE, a 1 in bit 2 clears OVR, every other bit is ignored. -/
def writeStatus (v : Word) (b : Block) : Block :=
  { b with done := b.done && !v.getLsbD 1, ovr := b.ovr && !v.getLsbD 2 }

/-- The 32 bits of a CONFIG read, R37: W in bits 15:0. -/
def configWord (words : Nat) : Word := (0 : BitVec 16) ++ BitVec.ofNat 16 words

/-- The 32 bits of an IRQEN read, R38. -/
def irqenWord (b : Block) : Word := (0 : BitVec 31) ++ BitVec.ofBool b.doneIE

/-- An IRQEN write, R38: DONEIE takes bit 0, the rest is ignored. -/
def writeIrqen (v : Word) (b : Block) : Block := { b with doneIE := v.getLsbD 0 }

/-- The interrupt output, R39, a level. -/
def irq (b : Block) : Bool := b.done && b.doneIE

end Sys2Proof.Machine
end

