-- ==== Sys2Proof/Machine/Ops.lean ====
section
/-! DEFINITION. The shared operations: register reads and writes by the host (20_memory.md), acceptance, completion with
and without an error (40_sequencer.md), the bus response, and reset (70_reset_and_hazards.md). -/

namespace Sys2Proof.Machine

/-- A free N-bit register: the words of draw `draw` from slot `1024 * reg` up. -/
def freeBank (words draw reg : Nat) : Bank :=
  (List.range words).map fun i => Config.freeWord draw (1024 * reg + i)

/-- Free working registers (10_state.md R42 to R44, R47): nothing is known of them but their widths and R42's range of bd. -/
def freeHidden (words draw : Nat) : Hidden :=
  { div :=
      { rem := freeBank words draw 0, quo := freeBank words draw 1, c := freeBank words draw 2
        e := freeBank words draw 3, r := freeBank words draw 4
        bd := Config.freeCount draw % (32 * words) }
    exp :=
      { acc := freeBank words draw 5, bs := freeBank words draw 6, ex := freeBank words draw 7
        m := freeBank words draw 8 }
    mul := { acc := freeBank words draw 9, carry := Config.freeWord draw (1024 * 10) } }

/-- Outside a command the working registers have no architectural value (R42): they are drawn afresh. -/
def dropHidden (s : State) : State :=
  { s with
    blk := { s.blk with hidden := freeHidden s.cfg.words s.draws }
    draws := s.draws + 1 }

/-- Acceptance of the command word `v`, 40_sequencer.md R141. -/
def accept (v : Word) (b : Block) : Block :=
  { b with cmdLast := v, pend := v, done := false, err := 0, seq := .busy }

/-- A host write dropped because SEQ = BUSY, R145: OVR is set and nothing else changes. -/
def dropWrite (b : Block) : Block := { b with ovr := true }

/-- What a host read of a register returns: 20_memory.md R75, 10_state.md R35 to R38. -/
def readReg (words : Nat) (b : Block) : Reg → Word
  | .cmd => b.cmdLast
  | .status => statusWord b
  | .config => configWord words
  | .irqen => irqenWord b
  | .opa i => b.opa.getD i 0
  | .opb i => b.opb.getD i 0
  | .opc i => b.opc.getD i 0
  | .res0 i => b.res0.getD i 0
  | .res1 i => b.res1.getD i 0

/-- What a host write to a register does: R74 (operand words), R35 and R141 (CMD), R36 (STATUS), R38 (IRQEN), R76 (the
read-only locations ignore it), and R145 while SEQ = BUSY. -/
def writeReg (v : Word) (b : Block) : Reg → Block
  | .cmd => if isBusy b then dropWrite b else accept v b
  | .status => writeStatus v b
  | .config => b
  | .irqen => writeIrqen v b
  | .opa i => if isBusy b then dropWrite b else { b with opa := b.opa.set i v }
  | .opb i => if isBusy b then dropWrite b else { b with opb := b.opb.set i v }
  | .opc i => if isBusy b then dropWrite b else { b with opc := b.opc.set i v }
  | .res0 _ => b
  | .res1 _ => b

/-- The bus answers a master. -/
def respond (master : Nat) (r : Response) (s : State) : State :=
  { s with responses := (master, r) :: s.responses }

/-- `raise BusError(addr)` (00_scope.md R11, 20_memory.md R77): an error response and no state change. -/
def raiseBusError (a : Access) (s : State) : State := respond a.master (.busError a.addr) s

/-- One host access, R73, in one step. -/
def serviceAccess (a : Access) (s : State) : State :=
  match accessReg s.cfg a with
  | none => raiseBusError a s
  | some reg =>
    match a.kind with
    | .read => respond a.master (.data (readReg s.cfg.words s.blk reg)) s
    | .write v => respond a.master .ack { s with blk := writeReg v s.blk reg }

/-- TAKING AN EXCEPTION: a command ends with an error (40_sequencer.md R143, 60_exceptions.md R306). ERR takes the code,
DONE is set, SEQ returns to IDLE; no result register is written, nothing is saved, and control goes nowhere. -/
def takeError (e : CmdError) (b : Block) : Block :=
  { b with err := e.code, done := true, seq := .idle }

/-- THE RETURN from one: there is no trap return (60_exceptions.md R307). The host acknowledges a completion, with or
without an error, by writing 1 to STATUS bit 1 (30_encoding.md R107, CLRDONE). -/
def acknowledge (b : Block) : Block := writeStatus 0x00000002 b

/-- A command ends with code 0 (R143): the result registers it assigns are written, all their words at once. -/
def commitResults (res0 res1 : Option Bank) (b : Block) : Block :=
  { b with
    res0 := res0.getD b.res0
    res1 := res1.getD b.res1
    err := 0
    done := true
    seq := .idle }

/-- What a completion does to the block (R143). -/
def commit (r : CmdResult) (b : Block) : Block :=
  match r with
  | .ok res0 res1 => commitResults res0 res1 b
  | .error e => takeError e b

/-- Completion (R143). The working registers have no value afterwards (R42). -/
def complete (r : CmdResult) (s : State) : State :=
  dropHidden { s with blk := commit r s.blk }

/-- An illegal command word ends with error code 1 whatever the operands are (30_encoding.md R103, 60_exceptions.md R304). -/
def completeIllegal (s : State) : State := complete (.error .illegalCmd) s

/-- One step of the reset input, 70_reset_and_hazards.md R330: every register takes its value of R47, and the working
registers become unspecified. What the hosts have still to do and the answers they had are not state of the block. -/
def resetBlock (s : State) : State :=
  dropHidden { s with blk := Block.reset s.cfg.words s.blk.hidden }

/-- The next turn is taken off the schedule. -/
def popTurn (s : State) : State := { s with turns := s.turns.tail }

end Sys2Proof.Machine
end

