-- ==== Sys2Proof/Machine/AddSubMul.lean ====
section
/-! DEFINITION. ADD, SUB and MUL (42_add_sub_mul.md): one result, RES0, and no error on any operand. -/

namespace Sys2Proof.Machine

/-- A command that writes RES0 only (10_state.md R34). -/
def resultRes0 (x : Bank) : CmdResult := .ok (some x) none

/-- ADD, R200. -/
def execAdd (s : State) : Host.Outcome State Fault Refusal :=
  .next (complete (resultRes0 (addw (operandA s) (operandB s))) s)

/-- SUB, R203. -/
def execSub (s : State) : Host.Outcome State Fault Refusal :=
  .next (complete (resultRes0 (subw (operandA s) (operandB s))) s)

/-- MUL, R206. -/
def execMul (s : State) : Host.Outcome State Fault Refusal :=
  .next (complete (resultRes0 (mulw (operandA s) (operandB s))) s)

end Sys2Proof.Machine
end

