-- ==== Sys2Proof/Machine/DivMod.lean ====
section
/-! DEFINITION. The long-division unit and DIVMOD (43_divmod.md). -/

namespace Sys2Proof.Machine

/-- Quotient selection, R232: bit N-1 of the trial difference, which is bit 31 of its most significant word. -/
def topBit (r : Bank) : Bool := (r.getLastD 0).getLsbD 31

/-- The working registers before the first iteration, R231. `r` is not written there: it keeps what it held (`old`). -/
def divStart (old : DivRegs) (a b : Bank) : DivRegs :=
  let bd := bitlen a - bitlen b
  { rem := a
    quo := ofVal a.length 0
    c := shl b bd
    e := shl (ofVal a.length 1) bd
    r := old.r
    bd := bd }

/-- The loop body of R231 up to its exit test: trial difference, quotient selection, and the two shifts. -/
def divIter (d : DivRegs) : DivRegs :=
  let r := subw d.rem d.c
  let accepted := !topBit r
  { d with
    rem := if accepted then r else d.rem
    quo := if accepted then addw d.quo d.e else d.quo
    c := shr d.c 1
    e := shr d.e 1
    r := r }

/-- One more iteration is to come: `bd <- bd - 1`. -/
def divCountDown (d : DivRegs) : DivRegs := { d with bd := d.bd - 1 }

/-- The loop of R231, which exits after the iteration where bd was 0. At most N iterations run (R234), so `fuel` = N
never runs out. -/
def divLoop : Nat → DivRegs → DivRegs
  | 0, d => d
  | fuel + 1, d =>
    let d' := divIter d
    if d.bd = 0 then d' else divLoop fuel (divCountDown d')

/-- The registers at the start of each iteration of the loop, in order (R235); it computes nothing `divLoop` uses. -/
def divTrace : Nat → DivRegs → List DivRegs
  | 0, _ => []
  | fuel + 1, d => d :: if d.bd = 0 then [] else divTrace fuel (divCountDown (divIter d))

/-- DIVW, R231, for a divisor that is not 0: quotient and remainder. `old` is what the divider's registers held. -/
def divw (old : DivRegs) (a b : Bank) : Bank × Bank :=
  if ltw a b then (ofVal a.length 0, a)
  else
    let d := divLoop (bits a) (divStart old a b)
    (d.quo, d.rem)

/-- REMW, 00_scope.md R12: the remainder of DIVW. -/
def remw (old : DivRegs) (a b : Bank) : Bank := (divw old a b).2

/-- What DIVMOD computes, R230. -/
def divmodResult (old : DivRegs) (a b : Bank) : CmdResult :=
  if val b = 0 then .error .divByZero
  else
    let qr := divw old a b
    .ok (some qr.1) (some qr.2)

/-- DIVMOD, R230. -/
def execDivmod (s : State) : Host.Outcome State Fault Refusal :=
  .next (complete (divmodResult s.blk.hidden.div (operandA s) (operandB s)) s)

end Sys2Proof.Machine
end

