-- ==== Sys2Proof/Machine/ModExp.lean ====
section
/-! DEFINITION. The modular-exponentiation engine and MODEXP (44_modexp.md). -/

namespace Sys2Proof.Machine

/-- The engine's registers before the loop, R261: the base is not reduced. -/
def expStart (base exp m : Bank) : ExpRegs :=
  { acc := ofVal base.length 1, bs := base, ex := exp, m := m }

/-- One iteration, R261: the multiply uses the base from before the squaring, and each product is truncated to N bits
before it is reduced (R262). -/
def expIter (old : DivRegs) (g : ExpRegs) : ExpRegs :=
  { g with
    acc := if oddw g.ex then remw old (mulw g.acc g.bs) g.m else g.acc
    bs := remw old (mulw g.bs g.bs) g.m
    ex := shr g.ex 1 }

/-- Whether the loop goes on: NE(ex, 0). -/
def expGoesOn (g : ExpRegs) : Bool := neqw g.ex (ofVal g.ex.length 0)

/-- The loop of R261. At most N iterations run (R263), so `fuel` = N never runs out. -/
def expLoop (old : DivRegs) : Nat → ExpRegs → ExpRegs
  | 0, g => g
  | fuel + 1, g => if expGoesOn g then expLoop old fuel (expIter old g) else g

/-- The registers at the start of each iteration, in order (R263, R267); it computes nothing `expLoop` uses. -/
def expTrace (old : DivRegs) : Nat → ExpRegs → List ExpRegs
  | 0, _ => []
  | fuel + 1, g => if expGoesOn g then g :: expTrace old fuel (expIter old g) else []

/-- MODEXPF, R261, for m not 0 unless exp is 0. `old` is what the divider's registers held. -/
def modexpf (old : DivRegs) (base exp m : Bank) : Bank :=
  (expLoop old (bits exp) (expStart base exp m)).acc

/-- What MODEXP computes, R260: no reduction runs when the exponent is 0, so m = 0 is then no error. -/
def modexpResult (old : DivRegs) (base exp m : Bank) : CmdResult :=
  if val m = 0 ∧ val exp ≠ 0 then .error .divByZero
  else resultRes0 (modexpf old base exp m)

/-- MODEXP, R260. -/
def execModexp (s : State) : Host.Outcome State Fault Refusal :=
  .next (complete (modexpResult s.blk.hidden.div (operandA s) (operandB s) (operandC s)) s)

end Sys2Proof.Machine
end

