-- ==== Sys2Proof/Machine/Sequencer.lean ====
section
/-! DEFINITION. Whose turn it is and what each turn does (20_memory.md R82, 40_sequencer.md R140 to R143, R330). -/

namespace Sys2Proof.Machine

/-- The completion step: the pending word is decoded and runs (R142, R143). -/
def completePending (s : State) : Host.Outcome State Fault Refusal :=
  match decode s.blk.pend with
  | .ok i => exec i s
  | .error _ => .next (completeIllegal s)

/-- The sequencer's turn: completion is enabled exactly when SEQ = BUSY (R143); an idle sequencer does nothing (R314). -/
def sequencerTurn (s : State) : Host.Outcome State Fault Refusal :=
  if isBusy s.blk then completePending s else .next s

/-- One step: the oldest turn of the schedule is taken. After the end of the schedule the sequencer has every turn, so
a busy block completes (R143, weak fairness) and an idle one rests (R314); log 2. -/
def takeTurn (s : State) : Host.Outcome State Fault Refusal :=
  match s.turns with
  | [] => sequencerTurn s
  | .access a :: _ => .next (serviceAccess a (popTurn s))
  | .sequencer :: _ => sequencerTurn (popTurn s)
  | .reset :: _ => .next (resetBlock (popTurn s))

/-- The parameters a step runs with (00_scope.md R6, R7); others are refused (D2). -/
def checkParams (p : Params) : Option Refusal :=
  if !(p.wordsPositive && p.wordsInBank) then some (.unsupportedWidth p.words)
  else if !p.baseAligned then some (.misalignedBase p.base)
  else none

/-- One step of the machine. -/
def runTurn (s : State) : Host.Outcome State Fault Refusal :=
  match checkParams s.cfg with
  | some r => .refused r
  | none => takeTurn s

/-- The machine with the command word `v` accepted (R141) and its completion the very next turn. -/
def fetchNext (v : Word) (s : State) : State :=
  { s with blk := accept v s.blk, turns := .sequencer :: s.turns }

/-- The command word of an opcode-table row; bits from `nbits` up are 0. DESIGN CHOICE (log 5): every command is 32 bits
(30_encoding.md R105), so a wider table word is none and `decodeTableWord` gives no instruction for it; here, where a state
has to be answered, its low 32 bits are placed. -/
def tableWord (nbits w : Nat) : Word := BitVec.ofNat 32 (w % 2 ^ nbits)

end Sys2Proof.Machine
end

