-- ==== Sys2Proof/Machine/Step.lean ====
section
/-! DEFINITION. The step of the machine, and how a test places the next command. -/

namespace Sys2Proof.Machine

/-- One step: one host access, one completion, one reset, or rest (20_memory.md R82). -/
def step (s : State) : Host.Outcome State Fault Refusal := Sys2Proof.Machine.runTurn s

/-- The state in which the very next step runs the command word of an opcode-table row. The block fetches nothing
(10_state.md R30): the word is accepted as a CMD write would have it, and its completion is the next turn (log 5). -/
def State.withFetchWord (s : State) (nbits w : Nat) : State := fetchNext (tableWord nbits w) s

end Sys2Proof.Machine
end

