-- ==== Sys2Proof/Machine/HostProgram.lean ====
section
/-! DEFINITION. The host-program notation of the spec (30_encoding.md R106, R107), and a host that runs such a program
beside the block: it makes one bus access at a time, binds what its reads return, and polls in a WAIT until STATUS shows
BUSY = 0. The block executes no stored program, and nothing in the block depends on this file. -/

namespace Sys2Proof.Machine

/-- What a read can be bound to: a name of the program (R106), the `s` of a WAIT, or the `x_i` of a STORE (R107). -/
inductive HostVar where
  | named (x : String)
  | waitStatus
  | storeWord (i : Nat)
deriving DecidableEq, Repr

/-- A primitive line, R106: one 4-byte access at an offset relative to BASE; a read names what it is bound to. -/
inductive HostLine where
  | w (off : BitVec 32) (data : Word)
  | r (off : BitVec 32) (x : HostVar)
deriving DecidableEq, Repr

/-- The operand registers, numbered k = 1, 2, 3 in R107. -/
inductive OperandReg where
  | opa
  | opb
  | opc
deriving DecidableEq, Repr

/-- The result registers, numbered j = 4, 5 in R107. -/
inductive ResultReg where
  | res0
  | res1
deriving DecidableEq, Repr

/-- The lines of a host program: a primitive line (R106) or a pseudo-instruction (R107). -/
inductive Pseudo where
  | line (l : HostLine)
  | load (x : OperandReg) (value : Nat)
  | command (i : Instr)
  | cmdw (v : Word)
  | wait
  | store (y : ResultReg) (x : String)
  | clrDone
  | clrOvr
  | ien
  | idis
deriving DecidableEq, Repr

/-- `X` of a LOAD is an N-bit value (R107). -/
def pseudoWellFormed (words : Nat) : Pseudo → Bool
  | .load _ value => decide (value < 2 ^ (32 * words))
  | .command i => i.wellFormed
  | .line _ | .cmdw _ | .wait | .store _ _ | .clrDone | .clrOvr | .ien | .idis => true

/-- The bank number of R107. -/
def operandBank : OperandReg → Nat
  | .opa => 1
  | .opb => 2
  | .opc => 3

/-- The bank number of R107. -/
def resultBank : ResultReg → Nat
  | .res0 => 4
  | .res1 => 5

/-- The offset of word i of bank k: `0x1000*k + 4*i`. -/
def bankOffset (k i : Nat) : BitVec 32 := BitVec.ofNat 32 (0x1000 * k + 4 * i)

/-- The expansions of R107 for W words. For a WAIT this is one pass of its `repeat`; `afterPass` repeats it. -/
def expandPseudo (words : Nat) : Pseudo → List HostLine
  | .line l => [l]
  | .load x value => (List.range words).map fun i => .w (bankOffset (operandBank x) i) (word value i)
  | .command i => [.w 0x0000 (encode i)]
  | .cmdw v => [.w 0x0000 v]
  | .wait => [.r 0x0004 .waitStatus]
  | .store y _ => (List.range words).map fun i => .r (bankOffset (resultBank y) i) (.storeWord i)
  | .clrDone => [.w 0x0004 0x00000002]
  | .clrOvr => [.w 0x0004 0x00000004]
  | .ien => [.w 0x000C 0x00000001]
  | .idis => [.w 0x000C 0x00000000]

/-- `MemWrite` and `MemRead` (00_scope.md R11): the access of a line, by a given master, at BASE + offset. -/
def lineAccess (p : Params) (master : Nat) : HostLine → Access
  | .w off data => { master := master, kind := .write data, addr := p.base + off.toNat, width := 4 }
  | .r off _ => { master := master, kind := .read, addr := p.base + off.toNat, width := 4 }

/-- The turns a host takes with a list of lines whose accesses are known beforehand. -/
def hostTurns (p : Params) (master : Nat) (ls : List HostLine) : List Turn :=
  ls.map fun l => .access (lineAccess p master l)

/-- The machine with turns added after those already scheduled. -/
def scheduleTurns (ts : List Turn) (s : State) : State := { s with turns := s.turns ++ ts }

/-! ### A host that runs a program -/

/-- A host beside the machine. The turns scheduled in `machine` belong to everyone else: other masters, the sequencer and
the reset input. -/
structure HostRun where
  machine : State
  /-- The master this host is. -/
  master  : Nat
  /-- The lines still to run; the first is in progress. -/
  program : List Pseudo
  /-- How many accesses of the present pass of the first line are done. -/
  taken   : Nat
  /-- What the reads returned, latest first; `none` where the latest read returned no data. -/
  bound   : List (HostVar × Option Nat)
deriving DecidableEq, Repr

/-- The value bound to a variable by the latest read of it. -/
def HostRun.valueOf (h : HostRun) (x : HostVar) : Option Nat := (h.bound.lookup x).join

/-- `-> x` (R106). -/
def HostRun.bind (x : HostVar) (v : Option Nat) (h : HostRun) : HostRun := { h with bound := (x, v) :: h.bound }

/-- The host goes on to its next line. -/
def HostRun.advance (h : HostRun) : HostRun := { h with program := h.program.tail, taken := 0 }

/-- The data of an answer: a read that ends in a bus error returns none (20_memory.md R77). -/
def answerData : Option Response → Option Nat
  | some (.data v) => some v.toNat
  | _ => none

/-- A read binds the answer (R106); a write binds nothing. -/
def HostRun.receive (l : HostLine) (answer : Option Response) (h : HostRun) : HostRun :=
  match l with
  | .r _ x => h.bind x (answerData answer)
  | .w _ _ => h

/-- `until s[0] = 0` (R107), of the status a WAIT has read. -/
def HostRun.waitOver (h : HostRun) : Bool :=
  match h.valueOf .waitStatus with
  | some s => s % 2 == 0
  | none => false

/-- `sum x_i * 2^(32*i)` (R107) over the words, lowest first. -/
def storedValue : List Nat → Nat
  | [] => 0
  | x :: xs => x + 2 ^ 32 * storedValue xs

/-- The X of a STORE: the sum over the words that its own reads returned. -/
def HostRun.storeResult (words : Nat) (h : HostRun) : Option Nat :=
  let xs := (List.range words).map fun i => h.valueOf (.storeWord i)
  if xs.all Option.isSome then some (storedValue (xs.map fun x => x.getD 0)) else none

/-- What a host does when the accesses of a line's pass are done (R107): a WAIT that still sees BUSY = 1 starts over, a
STORE binds its X, and every other line is finished. -/
def HostRun.afterPass (p : Pseudo) (h : HostRun) : HostRun :=
  match p with
  | .wait => if h.waitOver then h.advance else { h with taken := 0 }
  | .store _ x => (h.bind (.named x) (h.storeResult h.machine.cfg.words)).advance
  | .line _ | .load _ _ | .command _ | .cmdw _ | .clrDone | .clrOvr | .ien | .idis => h.advance

/-- The machine with a host's access before every scheduled turn. -/
def issue (a : Access) (s : State) : State := { s with turns := .access a :: s.turns }

/-- The host after its access `l` of line `p` was serviced and the machine became `t`. -/
def HostRun.afterLine (p : Pseudo) (l : HostLine) (t : State) (h : HostRun) : HostRun :=
  let h' := ({ h with machine := t, taken := h.taken + 1 } : HostRun).receive l (t.responses.head?.map Prod.snd)
  if h.taken + 1 < (expandPseudo h.machine.cfg.words p).length then h' else h'.afterPass p

/-- The host's next bus access. A host with no line left rests. -/
def HostRun.hostMove (h : HostRun) : Host.Outcome HostRun Fault Refusal :=
  match h.program with
  | [] => .next h
  | p :: _ =>
    match (expandPseudo h.machine.cfg.words p)[h.taken]? with
    | none => .next h.advance
    | some l =>
      match step (issue (lineAccess h.machine.cfg h.master l) h.machine) with
      | .next t => .next (h.afterLine p l t)
      | .fault f => .fault f
      | .refused r => .refused r

/-- A step of the machine between two accesses of the host. -/
def HostRun.machineMove (h : HostRun) : Host.Outcome HostRun Fault Refusal :=
  match step h.machine with
  | .next t => .next { h with machine := t }
  | .fault f => .fault f
  | .refused r => .refused r

/-- Who moves: the host, or the machine with what is scheduled in it. -/
inductive Mover where
  | host
  | machine
deriving DecidableEq, Repr

/-- One move. -/
def HostRun.move (m : Mover) (h : HostRun) : Host.Outcome HostRun Fault Refusal :=
  match m with
  | .host => h.hostMove
  | .machine => h.machineMove

/-- A run in the given order of moves. The order is open (00_scope.md R8, 60_exceptions.md R305), so claims are for every
order they allow (log 2). -/
def HostRun.moves : List Mover → HostRun → Host.Outcome HostRun Fault Refusal
  | [], h => .next h
  | m :: ms, h =>
    match h.move m with
    | .next h' => HostRun.moves ms h'
    | .fault f => .fault f
    | .refused r => .refused r

end Sys2Proof.Machine
end

