-- ==== Sys2Proof/Safety.lean ====
section
/-! DEFINITION. What a legal state is, what each kind of step leaves unchanged, and the names of the events a step can be:
the vocabulary the claims are written in. No definition here is used by the machine. -/

namespace Sys2Proof.Machine

/-- The working registers have their widths, and bd its range (10_state.md R42 to R44). -/
structure Hidden.Wf (words : Nat) (h : Hidden) : Prop where
  rem  : h.div.rem.length = words
  quo  : h.div.quo.length = words
  c    : h.div.c.length = words
  e    : h.div.e.length = words
  r    : h.div.r.length = words
  bd   : h.div.bd < 32 * words
  acc  : h.exp.acc.length = words
  bs   : h.exp.bs.length = words
  ex   : h.exp.ex.length = words
  m    : h.exp.m.length = words
  prod : h.mul.acc.length = words

/-- Every register holds W words (R31, R32). -/
structure Block.Wf (words : Nat) (b : Block) : Prop where
  opa    : b.opa.length = words
  opb    : b.opb.length = words
  opc    : b.opc.length = words
  res0   : b.res0.length = words
  res1   : b.res1.length = words
  hidden : Hidden.Wf words b.hidden

/-- The invariant of the machine. -/
structure State.Inv (s : State) : Prop where
  /-- W and BASE are supported (00_scope.md R6, R7). -/
  params : s.cfg.wellFormed = true
  /-- Every register holds W words. -/
  widths : Block.Wf s.cfg.words s.blk
  /-- PEND is equal to CMD_LAST (R41). -/
  pend : s.blk.pend = s.blk.cmdLast
  /-- ERR codes 3 to 15 are never produced (60_exceptions.md R300). -/
  code : s.blk.err = 0 ∨ s.blk.err = 1 ∨ s.blk.err = 2
  /-- While a command runs DONE and ERR are 0: acceptance clears them and only completion sets them (R36, R141, R143). -/
  running : s.blk.seq = .busy → s.blk.done = false ∧ s.blk.err = 0

/-- The reset values of R47 but for the working registers, which it leaves unspecified. -/
structure ResetValues (words : Nat) (b : Block) : Prop where
  seq     : b.seq = .idle
  opa     : b.opa = List.replicate words 0
  opb     : b.opb = List.replicate words 0
  opc     : b.opc = List.replicate words 0
  res0    : b.res0 = List.replicate words 0
  res1    : b.res1 = List.replicate words 0
  cmdLast : b.cmdLast = 0
  pend    : b.pend = 0
  status  : statusWord b = 0
  irqen   : irqenWord b = 0
  irq     : irq b = false

/-- What a completion never changes: "OPA, OPB, OPC, CMD_LAST, OVR or IRQEN" (40_sequencer.md R143), PEND, the parameters
and the bus. The result registers and STATUS.ERR, DONE, BUSY are the claim's own business. -/
structure CompletionFrame (s t : State) : Prop where
  opa       : t.blk.opa = s.blk.opa
  opb       : t.blk.opb = s.blk.opb
  opc       : t.blk.opc = s.blk.opc
  cmdLast   : t.blk.cmdLast = s.blk.cmdLast
  pend      : t.blk.pend = s.blk.pend
  ovr       : t.blk.ovr = s.blk.ovr
  doneIE    : t.blk.doneIE = s.blk.doneIE
  cfg       : t.cfg = s.cfg
  turns     : t.turns = s.turns
  responses : t.responses = s.responses

/-- `t` is `s` after a completion with the given code (R143), the result registers apart. -/
structure CompletedWith (code : BitVec 4) (s t : State) : Prop where
  err   : t.blk.err = code
  done  : t.blk.done = true
  seq   : t.blk.seq = .idle
  frame : CompletionFrame s t

/-- The one code a completion reports for the pending word and the operands, written from 60_exceptions.md R300 and R304
over the word's number: 1 unless it is 1 to 5 (30_encoding.md R103), else 2 for DIVMOD by 0 (R230) and for MODEXP with
modulus 0 and exponent not 0 (R260), else 0. -/
def completionCode (b : Block) : BitVec 4 :=
  if b.pend.toNat = 0 ∨ 5 < b.pend.toNat then 1
  else if b.pend.toNat = 4 ∧ val b.opb = 0 then 2
  else if b.pend.toNat = 5 ∧ val b.opc = 0 ∧ val b.opb ≠ 0 then 2
  else 0

/-- The state after one serviced access: the access is off the schedule, its master has its answer, and the block is `b`. -/
def afterAccess (s : State) (a : Access) (rest : List Turn) (r : Response) (b : Block) : State :=
  { s with blk := b, turns := rest, responses := (a.master, r) :: s.responses }

/-- The oldest turn is the access `a`. -/
def accessNext (s : State) (a : Access) (rest : List Turn) : Prop := s.turns = .access a :: rest

/-- The step is a host write of `v` to the register `reg`. -/
def writesReg (s : State) (reg : Reg) (v : Word) : Prop :=
  ∃ a rest, accessNext s a rest ∧ a.kind = .write v ∧ accessReg s.cfg a = some reg

/-- The registers whose writes are dropped while SEQ = BUSY: CMD and every operand word (R145). -/
def isDroppable : Reg → Bool
  | .cmd | .opa _ | .opb _ | .opc _ => true
  | .status | .config | .irqen | .res0 _ | .res1 _ => false

/-- The step accepts the command word `v` (R141). -/
def acceptsCommand (s : State) (v : Word) : Prop := writesReg s .cmd v ∧ s.blk.seq = .idle

/-- The step drops a host write because SEQ = BUSY (R145): hazard 1 of 70_reset_and_hazards.md R333. -/
def dropsWrite (s : State) : Prop := ∃ reg v, writesReg s reg v ∧ isDroppable reg = true ∧ s.blk.seq = .busy

/-- The step is the sequencer's. -/
def sequencerNext (s : State) : Prop := s.turns = [] ∨ ∃ rest, s.turns = .sequencer :: rest

/-- The step is a completion (R143). -/
def completes (s : State) : Prop := sequencerNext s ∧ s.blk.seq = .busy

/-- The step is a reset (R330). -/
def resets (s : State) : Prop := ∃ rest, s.turns = .reset :: rest

/-- The step is an access that ends in a bus error (R77). -/
def busErrors (s : State) : Prop := ∃ a rest, accessNext s a rest ∧ accessReg s.cfg a = none

end Sys2Proof.Machine
end

