-- ==== Sys2Proof/Certificates/Slice0/Obligations.lean ====
section
/-! DEFINITION. The statements for the provers. N is `32 * W`; `val` is R10's value of a register; `State.Inv`,
`CompletedWith` and the names of the events of a step are in Safety.lean. -/

open Sys2Proof Sys2Proof.Machine

/-! ### Encoding -/

/-- 30_encoding.md R101: the opcode map, with RSVD = 0. -/
def Obligations.OpcodeMapDecodes : Prop :=
  decode 0x00000001 = .ok .add ∧ decode 0x00000002 = .ok .sub ∧ decode 0x00000003 = .ok .mul ∧
  decode 0x00000004 = .ok .divmod ∧ decode 0x00000005 = .ok .modexp ∧
  decode 0x00000000 = .error (.opcode 0x0) ∧
  ∀ op : BitVec 4, 0x6 ≤ op.toNat → decode ((0 : BitVec 28) ++ op) = .error (.opcode op)

/-- R104, with the legal words of R103 as numbers: the decoder is total, and it accepts a word exactly when bits 31:4 are
0 and bits 3:0 are 1 to 5. -/
def Obligations.LegalWordsExactly : Prop :=
  ∀ v : Word,
    ((∃ i, decode v = .ok i) ↔ v.toNat / 16 = 0 ∧ 1 ≤ v.toNat % 16 ∧ v.toNat % 16 ≤ 5) ∧
    (decode v = .ok .add ↔ v.toNat = 1) ∧ (decode v = .ok .sub ↔ v.toNat = 2) ∧
    (decode v = .ok .mul ↔ v.toNat = 3) ∧ (decode v = .ok .divmod ↔ v.toNat = 4) ∧
    (decode v = .ok .modexp ↔ v.toNat = 5)

/-- R100, R105: every instruction has one word, and every legal word is the word of its instruction. -/
def Obligations.DecodeAndEncodeAgree : Prop :=
  (∀ i : Instr, i.wellFormed = true → decode (encode i) = .ok i) ∧
  ∀ (v : Word) (i : Instr), decode v = .ok i → encode i = v

/-! ### The host interface -/

/-- 20_memory.md R72: which register each byte offset holds, and that every other offset is unmapped. -/
def Obligations.RegisterMapExactly : Prop :=
  ∀ words off : Nat, words ≤ 1024 →
    (mapOffset words off = some .cmd ↔ off = 0x0000) ∧
    (mapOffset words off = some .status ↔ off = 0x0004) ∧
    (mapOffset words off = some .config ↔ off = 0x0008) ∧
    (mapOffset words off = some .irqen ↔ off = 0x000C) ∧
    (∀ i, mapOffset words off = some (.opa i) ↔ i < words ∧ off = 0x1000 + 4 * i) ∧
    (∀ i, mapOffset words off = some (.opb i) ↔ i < words ∧ off = 0x2000 + 4 * i) ∧
    (∀ i, mapOffset words off = some (.opc i) ↔ i < words ∧ off = 0x3000 + 4 * i) ∧
    (∀ i, mapOffset words off = some (.res0 i) ↔ i < words ∧ off = 0x4000 + 4 * i) ∧
    (∀ i, mapOffset words off = some (.res1 i) ↔ i < words ∧ off = 0x5000 + 4 * i) ∧
    (0x6000 ≤ off → mapOffset words off = none)

/-- R73, R77, R79: an access at a byte offset of BASE ends in a bus error, with no change of the block, exactly when it
is not 4 bytes wide, misaligned, or at an offset no register of R72 has. That an address beyond the 32 KiB window is
answered so too, and that the error carries the bus address, is the model's choice (log 6). -/
def Obligations.BusErrorExactlyOnRejectedAccess : Prop :=
  ∀ (s : State) (a : Access) (rest : List Turn) (off : Nat),
    s.cfg.wellFormed = true → accessNext s a rest → a.addr = s.cfg.base + off →
    ((a.width ≠ 4 ∨ off % 4 ≠ 0 ∨ ∀ reg, regExists s.cfg.words reg = true → offsetOf reg ≠ off) ↔
      step s = .next (afterAccess s a rest (.busError a.addr) s.blk))

/-- R75, R81: a read of a mapped offset answers the register's current value, whatever SEQ is, and changes nothing in the
block. -/
def Obligations.ReadAnswersCurrentValue : Prop :=
  ∀ (s : State) (a : Access) (rest : List Turn) (reg : Reg),
    s.Inv → accessNext s a rest → a.kind = .read → a.width = 4 →
    regExists s.cfg.words reg = true → a.addr = s.cfg.base + offsetOf reg →
    ∃ v, step s = .next (afterAccess s a rest (.data v) s.blk) ∧
      (∀ i, reg = .opa i → s.blk.opa[i]? = some v) ∧ (∀ i, reg = .opb i → s.blk.opb[i]? = some v) ∧
      (∀ i, reg = .opc i → s.blk.opc[i]? = some v) ∧ (∀ i, reg = .res0 i → s.blk.res0[i]? = some v) ∧
      (∀ i, reg = .res1 i → s.blk.res1[i]? = some v) ∧ (reg = .cmd → v = s.blk.cmdLast) ∧
      (reg = .status → v = statusWord s.blk) ∧ (reg = .config → v.toNat = s.cfg.words) ∧
      (reg = .irqen → v.toNat = if s.blk.doneIE then 1 else 0)

/-- R74: an operand word written while IDLE takes the 32 bits of bus data, and no other word of the block changes. -/
def Obligations.OperandWriteWhileIdle : Prop :=
  ∀ (s : State) (a : Access) (rest : List Turn) (v : Word) (i : Nat),
    s.Inv → accessNext s a rest → a.kind = .write v → a.width = 4 → i < s.cfg.words → s.blk.seq = .idle →
    (a.addr = s.cfg.base + 0x1000 + 4 * i → ∃ x,
      step s = .next (afterAccess s a rest .ack { s.blk with opa := x }) ∧ x.length = s.cfg.words ∧
      ∀ j < s.cfg.words, x[j]? = if j = i then some v else s.blk.opa[j]?) ∧
    (a.addr = s.cfg.base + 0x2000 + 4 * i → ∃ x,
      step s = .next (afterAccess s a rest .ack { s.blk with opb := x }) ∧ x.length = s.cfg.words ∧
      ∀ j < s.cfg.words, x[j]? = if j = i then some v else s.blk.opb[j]?) ∧
    (a.addr = s.cfg.base + 0x3000 + 4 * i → ∃ x,
      step s = .next (afterAccess s a rest .ack { s.blk with opc := x }) ∧ x.length = s.cfg.words ∧
      ∀ j < s.cfg.words, x[j]? = if j = i then some v else s.blk.opc[j]?)

/-- R74: "The host loads an N-bit value x by writing word(x, i) to each of the W word offsets, in any order" (to OPA here;
`order` may even repeat an index). -/
def Obligations.LoadOperandInAnyOrder : Prop :=
  ∀ (s : State) (master x : Nat) (order : List Nat) (rest : List Turn),
    s.Inv → s.blk.seq = .idle → x < 2 ^ (32 * s.cfg.words) →
    (∀ i, i ∈ order ↔ i < s.cfg.words) →
    s.turns = order.map (fun i =>
      Turn.access { master := master, kind := .write (word x i), addr := s.cfg.base + 0x1000 + 4 * i, width := 4 }) ++ rest →
    ∃ bank resp, val bank = x ∧ bank.length = s.cfg.words ∧
      Host.Core.run Sys2Proof.core order.length s =
        .next { s with blk := { s.blk with opa := bank }, turns := rest, responses := resp }

/-- R145: what host accesses do while SEQ = BUSY. Writes to CMD and to operand words are dropped and set OVR; STATUS and
IRQEN writes are serviced; writes to read-only locations are ignored; every read is serviced. -/
def Obligations.AccessesWhileBusy : Prop :=
  ∀ (s : State) (a : Access) (rest : List Turn) (reg : Reg) (v : Word),
    s.cfg.wellFormed = true → accessNext s a rest → accessReg s.cfg a = some reg → s.blk.seq = .busy →
    (a.kind = .write v → isDroppable reg = true →
      step s = .next (afterAccess s a rest .ack { s.blk with ovr := true })) ∧
    (a.kind = .write v → reg = .status →
      step s = .next (afterAccess s a rest .ack
        { s.blk with done := if v.getLsbD 1 then false else s.blk.done, ovr := if v.getLsbD 2 then false else s.blk.ovr })) ∧
    (a.kind = .write v → reg = .irqen →
      step s = .next (afterAccess s a rest .ack { s.blk with doneIE := v.getLsbD 0 })) ∧
    (a.kind = .write v → (reg = .config ∨ (∃ i, reg = .res0 i) ∨ ∃ i, reg = .res1 i) →
      step s = .next (afterAccess s a rest .ack s.blk)) ∧
    (a.kind = .read → ∃ d, step s = .next (afterAccess s a rest (.data d) s.blk))

/-- R76: a write to a result word or to CONFIG is ignored, whatever SEQ is: no bus error, no change, no OVR. -/
def Obligations.ReadOnlyWritesIgnored : Prop :=
  ∀ (s : State) (a : Access) (rest : List Turn) (v : Word) (off : Nat),
    s.cfg.wellFormed = true → accessNext s a rest → a.kind = .write v → a.width = 4 → a.addr = s.cfg.base + off →
    (off = 0x0008 ∨ ∃ i, i < s.cfg.words ∧ (off = 0x4000 + 4 * i ∨ off = 0x5000 + 4 * i)) →
    step s = .next (afterAccess s a rest .ack s.blk)

/-- 10_state.md R37, R38: CONFIG reads W and ignores writes; IRQEN takes bit 0 of a write, whatever SEQ is, and reads it
back with the reserved bits 0. -/
def Obligations.ConfigAndIrqenRegisters : Prop :=
  ∀ (s : State) (a : Access) (rest : List Turn) (v : Word),
    s.cfg.wellFormed = true → accessNext s a rest → a.width = 4 →
    (a.addr = s.cfg.base + 0x0008 →
      (a.kind = .write v → step s = .next (afterAccess s a rest .ack s.blk)) ∧
      (a.kind = .read → step s = .next (afterAccess s a rest (.data (BitVec.ofNat 32 s.cfg.words)) s.blk))) ∧
    (a.addr = s.cfg.base + 0x000C →
      (a.kind = .write v → step s = .next (afterAccess s a rest .ack { s.blk with doneIE := v.getLsbD 0 })) ∧
      (a.kind = .read →
        step s = .next (afterAccess s a rest (.data (if s.blk.doneIE then 0x00000001 else 0x00000000)) s.blk)))

/-- 20_memory.md R86: the block does not tell masters apart: only the address of the answer depends on the master. -/
def Obligations.MastersAreNotToldApart : Prop :=
  ∀ (s t : State) (a : Access) (rest : List Turn) (other : Nat),
    accessNext s a rest → step s = .next t →
    ∃ r, t.responses = (a.master, r) :: s.responses ∧
      step { s with turns := .access { a with master := other } :: rest } =
        .next { t with responses := (other, r) :: s.responses }

/-- 30_encoding.md R106, R107: the lines of every pseudo-instruction (of a WAIT, one pass of its loop) are 4-byte accesses
that reach the registers it names, with the words it names, in increasing word order. -/
def Obligations.PseudoInstructionsReachTheirRegisters : Prop :=
  ∀ (p : Params) (master value : Nat) (i : Instr) (v : Word) (x : String), p.wellFormed = true →
    let seen := fun q => (expandPseudo p.words q).map fun l =>
      (accessReg p (lineAccess p master l), (lineAccess p master l).kind)
    seen (.load .opa value) = (List.range p.words).map (fun k => (some (.opa k), .write (word value k))) ∧
    seen (.load .opb value) = (List.range p.words).map (fun k => (some (.opb k), .write (word value k))) ∧
    seen (.load .opc value) = (List.range p.words).map (fun k => (some (.opc k), .write (word value k))) ∧
    seen (.store .res0 x) = (List.range p.words).map (fun k => (some (.res0 k), .read)) ∧
    seen (.store .res1 x) = (List.range p.words).map (fun k => (some (.res1 k), .read)) ∧
    seen (.command i) = [(some .cmd, .write (encode i))] ∧ seen (.cmdw v) = [(some .cmd, .write v)] ∧
    seen .wait = [(some .status, .read)] ∧
    seen .clrDone = [(some .status, .write 0x2)] ∧ seen .clrOvr = [(some .status, .write 0x4)] ∧
    seen .ien = [(some .irqen, .write 0x1)] ∧ seen .idis = [(some .irqen, .write 0x0)]

/-! ### The command lifecycle -/

/-- 40_sequencer.md R141: acceptance, in one step, of every 32-bit word; IRQ falls. -/
def Obligations.AcceptanceOfAnyWord : Prop :=
  ∀ (s : State) (a : Access) (rest : List Turn) (v : Word),
    s.cfg.wellFormed = true → accessNext s a rest → a.kind = .write v → a.width = 4 → a.addr = s.cfg.base + 0x0000 →
    s.blk.seq = .idle →
    ∃ t, step s = .next t ∧
      t = afterAccess s a rest .ack
        { s.blk with cmdLast := v, pend := v, done := false, err := 0, seq := .busy } ∧
      irq t.blk = false

/-- R142, R143: when the pending word decodes to an instruction, the completion step is `exec` of it, once the turn is off
the schedule. -/
def Obligations.CompletionRunsThePendingCommand : Prop :=
  ∀ (s : State) (i : Instr), s.cfg.wellFormed = true → completes s → decode s.blk.pend = .ok i →
    step s = exec i { s with turns := s.turns.tail }

/-- 60_exceptions.md R304: every completion reports exactly one code. It is 1 when the word is illegal,
whatever the operands are; else 2 when the command's zero-divisor condition holds; else 0. A nonzero code writes no result
register, and no completion changes an operand register, CMD_LAST, OVR or IRQEN. -/
def Obligations.CompletionReportsOneCode : Prop :=
  ∀ s : State, s.cfg.wellFormed = true → completes s →
    ∃ t, step s = .next t ∧ CompletedWith (completionCode s.blk) { s with turns := s.turns.tail } t ∧
      (t.blk.err ≠ 0 → t.blk.res0 = s.blk.res0 ∧ t.blk.res1 = s.blk.res1)

/-- R103: every word written while IDLE is accepted, and it completes with code 1 exactly when it is illegal: RSVD not 0, or
OP 0x0 or 0x6 to 0xF. An illegal word writes no result. -/
def Obligations.IllegalWordIsAcceptedAndReported : Prop :=
  ∀ (s : State) (a : Access) (v : Word) (rest : List Turn),
    s.cfg.wellFormed = true → s.turns = .access a :: .sequencer :: rest → a.kind = .write v →
    accessReg s.cfg a = some .cmd → s.blk.seq = .idle →
    ∃ t, Host.Core.run Sys2Proof.core 2 s = .next t ∧
      t.blk.cmdLast = v ∧ t.blk.done = true ∧ t.blk.seq = .idle ∧ t.turns = rest ∧
      (t.blk.err = 1 ↔ v.toNat / 16 ≠ 0 ∨ v.toNat % 16 = 0 ∨ 6 ≤ v.toNat % 16) ∧
      (t.blk.err = 1 → t.blk.res0 = s.blk.res0 ∧ t.blk.res1 = s.blk.res1)

/-- 10_state.md R30, 40_sequencer.md R140, R146: SEQ leaves IDLE only by an acceptance and leaves BUSY only by a completion
or a reset, and STATUS.BUSY shows it. -/
def Obligations.SequencerTransitions : Prop :=
  ∀ s t : State, step s = .next t →
    (s.blk.seq = .idle → (t.blk.seq = .busy ↔ ∃ v, acceptsCommand s v)) ∧
    (s.blk.seq = .busy → (t.blk.seq = .idle ↔ completes s ∨ resets s)) ∧
    ((statusWord t.blk).getLsbD 0 = true ↔ t.blk.seq = .busy)

/-- 10_state.md R36: what STATUS reads after any step. BUSY is SEQ; DONE is set by every completion and cleared by acceptance,
by a 1 written to bit 1, or by reset; OVR is set by a dropped write and cleared only by a 1 written to bit 2 or by reset; ERR
changes only at completion, acceptance (to 0) and reset (to 0); the other bits read 0. -/
def Obligations.StatusFieldsAfterAnyStep : Prop :=
  ∀ s t : State, step s = .next t →
    ((statusWord t.blk).getLsbD 0 = true ↔ t.blk.seq = .busy) ∧
    ((statusWord t.blk).getLsbD 1 = true ↔
      completes s ∨ ((statusWord s.blk).getLsbD 1 = true ∧ (¬∃ v, acceptsCommand s v) ∧ ¬resets s ∧
        ∀ v, writesReg s .status v → v.getLsbD 1 = false)) ∧
    ((statusWord t.blk).getLsbD 2 = true ↔
      dropsWrite s ∨ ((statusWord s.blk).getLsbD 2 = true ∧ ¬resets s ∧
        ∀ v, writesReg s .status v → v.getLsbD 2 = false)) ∧
    (statusWord t.blk).extractLsb' 4 4 = t.blk.err ∧
    (((∃ v, acceptsCommand s v) ∨ resets s) → t.blk.err = 0) ∧
    (completes s → t.blk.err = completionCode s.blk) ∧
    ((¬∃ v, acceptsCommand s v) → ¬resets s → ¬completes s → t.blk.err = s.blk.err) ∧
    (statusWord t.blk).getLsbD 3 = false ∧ (statusWord t.blk).extractLsb' 8 24 = 0

/-- R39, 60_exceptions.md R303: IRQ is the level DONE AND DONEIE, so a completion raises it exactly when DONEIE = 1, and an
acceptance, a 1 written to STATUS bit 1 or a reset lowers it; masking keeps DONE; OVR and bus errors leave it. -/
def Obligations.InterruptLevel : Prop :=
  ∀ s t : State, step s = .next t →
    (irq t.blk = true ↔ t.blk.done = true ∧ t.blk.doneIE = true) ∧
    (completes s → irq t.blk = s.blk.doneIE) ∧
    (((∃ v, acceptsCommand s v) ∨ resets s) → irq t.blk = false) ∧
    (∀ v, writesReg s .status v → v.getLsbD 1 = true → irq t.blk = false) ∧
    (∀ v, writesReg s .irqen v → t.blk.done = s.blk.done ∧ irq t.blk = (s.blk.done && v.getLsbD 0)) ∧
    (dropsWrite s ∨ busErrors s → irq t.blk = irq s.blk)

/-- R32: "Only the completion of a command without error writes them", reset apart; they keep their values otherwise. -/
def Obligations.ResultsChangeOnlyByErrorFreeCompletion : Prop :=
  ∀ s t : State, step s = .next t → (t.blk.res0 ≠ s.blk.res0 ∨ t.blk.res1 ≠ s.blk.res1) →
    resets s ∨ (completes s ∧ t.blk.err = 0)

/-- 20_memory.md R85: a command computes on the operand values present at its acceptance: the acceptance changes no operand
register, and while SEQ = BUSY no step but a reset changes OPA, OPB, OPC or the pending word. -/
def Obligations.OperandsStableWhileBusy : Prop :=
  ∀ s t : State, step s = .next t →
    (s.blk.seq = .busy → ¬resets s →
      t.blk.opa = s.blk.opa ∧ t.blk.opb = s.blk.opb ∧ t.blk.opc = s.blk.opc ∧ t.blk.pend = s.blk.pend) ∧
    (∀ v, acceptsCommand s v →
      t.blk.opa = s.blk.opa ∧ t.blk.opb = s.blk.opb ∧ t.blk.opc = s.blk.opc ∧ t.blk.pend = v)

/-- R8, R143: whatever the hosts do, a busy block leaves BUSY by the end of its schedule (weak fairness over a finite
schedule, log 2). -/
def Obligations.EveryAcceptedCommandEnds : Prop :=
  ∀ s : State, s.cfg.wellFormed = true → s.blk.seq = .busy →
    ∃ k t, k ≤ s.turns.length + 1 ∧ Host.Core.run Sys2Proof.core k s = .next t ∧ t.blk.seq = .idle

/-- R83: a host that polls until STATUS shows BUSY = 0 finds the results of its own command, however many accesses were
serviced meanwhile and however many steps passed since, if no other command was accepted and no reset came. -/
def Obligations.PolledResultsAreTheCommandsOwn : Prop :=
  ∀ (k : Nat) (s t : State), s.cfg.wellFormed = true → s.blk.seq = .busy → Host.Core.run Sys2Proof.core k s = .next t →
    (∀ j u, j < k → Host.Core.run Sys2Proof.core j s = .next u → ¬resets u ∧ ¬∃ v, acceptsCommand u v) →
    (statusWord t.blk).getLsbD 0 = false →
    (∀ i, decode s.blk.pend = .ok i →
      ∃ u, exec i s = .next u ∧ t.blk.res0 = u.blk.res0 ∧ t.blk.res1 = u.blk.res1 ∧ t.blk.err = u.blk.err) ∧
    (∀ e, decode s.blk.pend = .error e →
      t.blk.res0 = s.blk.res0 ∧ t.blk.res1 = s.blk.res1 ∧ t.blk.err = 1)

/-- R8, R81: reads between acceptance and completion do not change what the completion leaves in the block, however many
there are. -/
def Obligations.LatencyOfReadsIsInvisible : Prop :=
  ∀ (s : State) (reads : List Access) (rest : List Turn),
    s.cfg.wellFormed = true → (∀ a ∈ reads, a.kind = .read) →
    s.turns = reads.map Turn.access ++ .sequencer :: rest →
    ∃ t u, Host.Core.run Sys2Proof.core (reads.length + 1) s = .next t ∧
      step { s with turns := .sequencer :: rest } = .next u ∧ t.blk = u.blk ∧ t.turns = u.turns

/-- 60_exceptions.md R305: a host write and a completion may happen in either order. Completed first, an operand write is
serviced; completed after, it is dropped and sets OVR; the results are the same. -/
def Obligations.BothOrdersOfWriteAndCompletion : Prop :=
  ∀ (s : State) (a : Access) (v : Word) (i : Nat) (rest : List Turn),
    s.Inv → s.blk.seq = .busy → a.kind = .write v → accessReg s.cfg a = some (.opa i) →
    ∃ t u,
      Host.Core.run Sys2Proof.core 2 { s with turns := .sequencer :: .access a :: rest } = .next t ∧
      Host.Core.run Sys2Proof.core 2 { s with turns := .access a :: .sequencer :: rest } = .next u ∧
      t.blk.opa = s.blk.opa.set i v ∧ t.blk.ovr = s.blk.ovr ∧
      u.blk.opa = s.blk.opa ∧ u.blk.ovr = true ∧
      t.blk.res0 = u.blk.res0 ∧ t.blk.res1 = u.blk.res1 ∧ t.blk.err = u.blk.err

/-! ### Reset and the whole machine -/

/-- 70_reset_and_hazards.md R330, 10_state.md R47: a reset step discards the command in progress and puts every register at
its reset value; the working registers are unspecified but for their widths, and CONFIG still reads W. -/
def Obligations.ResetStep : Prop :=
  ∀ (s : State) (rest : List Turn), s.cfg.wellFormed = true → s.turns = .reset :: rest →
    ∃ t, step s = .next t ∧ ResetValues s.cfg.words t.blk ∧ Hidden.Wf s.cfg.words t.blk.hidden ∧
      (readReg t.cfg.words t.blk .config).toNat = s.cfg.words

/-- The model's choice (log 9): a reset step keeps the parameters, the turns still to come and the answers given. -/
def Obligations.ResetKeepsTheHosts : Prop :=
  ∀ (s t : State) (rest : List Turn), s.turns = .reset :: rest → step s = .next t →
    t.cfg = s.cfg ∧ t.turns = rest ∧ t.responses = s.responses

/-- R47 and the invariant at reset, for every supported W and BASE; State.reset is the default instance. -/
def Obligations.ResetStateIsLegal : Prop :=
  (∀ p : Params, p.wellFormed = true →
    ResetValues p.words (State.resetWith p).blk ∧ (State.resetWith p).Inv) ∧
  State.reset = State.resetWith { words := 2, base := 0 }

/-- Every step keeps the invariant: the registers keep their W words, PEND = CMD_LAST (10_state.md R41), ERR is 0, 1 or 2
(60_exceptions.md R300), and DONE and ERR are 0 while a command runs. -/
def Obligations.EveryStepKeepsTheInvariant : Prop :=
  ∀ s t : State, s.Inv → step s = .next t → t.Inv

/-- From a legal state every step answers a next state, and W and BASE stay (R46). -/
def Obligations.LegalStatesNeverStop : Prop :=
  ∀ s : State, s.Inv → ∃ t, step s = .next t ∧ t.cfg = s.cfg

/-- 00_scope.md R6, R7 and D2: an unsupported W or a misaligned BASE is refused, and nothing else is. -/
def Obligations.OnlyUnsupportedParametersAreRefused : Prop :=
  ∀ s : State,
    (s.cfg.words = 0 ∨ 1024 < s.cfg.words → step s = .refused (.unsupportedWidth s.cfg.words)) ∧
    (1 ≤ s.cfg.words → s.cfg.words ≤ 1024 → s.cfg.base % 0x8000 ≠ 0 → step s = .refused (.misalignedBase s.cfg.base)) ∧
    (1 ≤ s.cfg.words → s.cfg.words ≤ 1024 → s.cfg.base % 0x8000 = 0 → ∃ t, step s = .next t)

/-! ### The commands -/

/-- 42_add_sub_mul.md R200: ADD. -/
def Obligations.AddCommand : Prop :=
  encode .add = 0x00000001 ∧
  ∀ s : State, Block.Wf s.cfg.words s.blk →
    ∃ t, exec .add s = .next t ∧ CompletedWith 0 s t ∧
      t.blk.res0 = addw s.blk.opa s.blk.opb ∧ t.blk.res1 = s.blk.res1 ∧
      val t.blk.res0 = (val s.blk.opa + val s.blk.opb) % 2 ^ (32 * s.cfg.words)

/-- R203: SUB. -/
def Obligations.SubCommand : Prop :=
  encode .sub = 0x00000002 ∧
  ∀ s : State, Block.Wf s.cfg.words s.blk →
    ∃ t, exec .sub s = .next t ∧ CompletedWith 0 s t ∧
      t.blk.res0 = subw s.blk.opa s.blk.opb ∧ t.blk.res1 = s.blk.res1 ∧
      (val t.blk.res0 : Int) = ((val s.blk.opa : Int) - val s.blk.opb) % 2 ^ (32 * s.cfg.words)

/-- R206: MUL. -/
def Obligations.MulCommand : Prop :=
  encode .mul = 0x00000003 ∧
  ∀ s : State, Block.Wf s.cfg.words s.blk →
    ∃ t, exec .mul s = .next t ∧ CompletedWith 0 s t ∧
      t.blk.res0 = mulw s.blk.opa s.blk.opb ∧ t.blk.res1 = s.blk.res1 ∧
      val t.blk.res0 = val s.blk.opa * val s.blk.opb % 2 ^ (32 * s.cfg.words)

/-- 43_divmod.md R230: DIVMOD, with and without a zero divisor. -/
def Obligations.DivmodCommand : Prop :=
  encode .divmod = 0x00000004 ∧
  ∀ s : State,
    (val s.blk.opb = 0 → ∃ t, exec .divmod s = .next t ∧ CompletedWith 2 s t ∧
      t.blk.res0 = s.blk.res0 ∧ t.blk.res1 = s.blk.res1) ∧
    (val s.blk.opb ≠ 0 → ∃ t, exec .divmod s = .next t ∧ CompletedWith 0 s t ∧
      t.blk.res0 = (divw s.blk.hidden.div s.blk.opa s.blk.opb).1 ∧
      t.blk.res1 = (divw s.blk.hidden.div s.blk.opa s.blk.opb).2)

/-- R233, R239: on legal states DIVMOD's results are the mathematical quotient and remainder, and the division identity holds
through the block's own MUL and ADD. -/
def Obligations.DivmodGivesQuotientAndRemainder : Prop :=
  ∀ s : State, Block.Wf s.cfg.words s.blk → val s.blk.opb ≠ 0 →
    ∃ t, exec .divmod s = .next t ∧
      val t.blk.res0 = val s.blk.opa / val s.blk.opb ∧ val t.blk.res1 = val s.blk.opa % val s.blk.opb ∧
      addw (mulw t.blk.res0 s.blk.opb) t.blk.res1 = s.blk.opa ∧ ltw t.blk.res1 s.blk.opb = true

/-- R237: DIVMOD's corner cases. -/
def Obligations.DivmodCornerCases : Prop :=
  ∀ s : State, Block.Wf s.cfg.words s.blk →
    ∃ t, exec .divmod s = .next t ∧
      (val s.blk.opb = 0 → t.blk.err = 2 ∧ t.blk.res0 = s.blk.res0 ∧ t.blk.res1 = s.blk.res1) ∧
      (val s.blk.opb ≠ 0 → val s.blk.opa < val s.blk.opb → val t.blk.res0 = 0 ∧ t.blk.res1 = s.blk.opa) ∧
      (val s.blk.opb ≠ 0 → s.blk.opa = s.blk.opb → val t.blk.res0 = 1 ∧ val t.blk.res1 = 0) ∧
      (val s.blk.opb = 1 → t.blk.res0 = s.blk.opa ∧ val t.blk.res1 = 0) ∧
      (val s.blk.opb ≠ 0 → val s.blk.opa = 0 → val t.blk.res0 = 0 ∧ val t.blk.res1 = 0) ∧
      (s.cfg.words = 2 → val s.blk.opa = 2 ^ 64 - 1 → val s.blk.opb = 2 ^ 63 + 1 →
        val t.blk.res0 = 1 ∧ val t.blk.res1 = 2 ^ 63 - 2) ∧
      (s.cfg.words = 2 → val s.blk.opa = 2 ^ 63 → val s.blk.opb = 2 ^ 63 - 1 → val t.blk.res0 = 1 ∧ val t.blk.res1 = 1)

/-- 44_modexp.md R260: MODEXP; m = 0 is an error exactly when exp is not 0. -/
def Obligations.ModexpCommand : Prop :=
  encode .modexp = 0x00000005 ∧
  ∀ s : State,
    (val s.blk.opc = 0 ∧ val s.blk.opb ≠ 0 → ∃ t, exec .modexp s = .next t ∧ CompletedWith 2 s t ∧
      t.blk.res0 = s.blk.res0 ∧ t.blk.res1 = s.blk.res1) ∧
    (¬(val s.blk.opc = 0 ∧ val s.blk.opb ≠ 0) → ∃ t, exec .modexp s = .next t ∧ CompletedWith 0 s t ∧
      t.blk.res0 = modexpf s.blk.hidden.div s.blk.opa s.blk.opb s.blk.opc ∧ t.blk.res1 = s.blk.res1)

/-- R261, R262 as numbers: one iteration multiplies and squares with products truncated to N bits before the remainder is
taken, the multiply using the base from before the squaring, and shifts the exponent right. -/
def Obligations.ModexpIteration : Prop :=
  ∀ (words : Nat) (old : DivRegs) (g : ExpRegs),
    g.acc.length = words → g.bs.length = words → g.ex.length = words → g.m.length = words → val g.m ≠ 0 →
    (val (expIter old g).acc =
      if val g.ex % 2 = 1 then val g.acc * val g.bs % 2 ^ (32 * words) % val g.m else val g.acc) ∧
    val (expIter old g).bs = val g.bs * val g.bs % 2 ^ (32 * words) % val g.m ∧
    val (expIter old g).ex = val g.ex / 2 ∧ (expIter old g).m = g.m

/-- R264: the exact range of MODEXP. -/
def Obligations.ModexpExactRange : Prop :=
  ∀ (words : Nat) (old : DivRegs) (base exp m : Bank),
    base.length = words → exp.length = words → m.length = words →
    (1 ≤ val exp → 1 ≤ val m → val base < 2 ^ (16 * words) → val m ≤ 2 ^ (16 * words) →
      val (modexpf old base exp m) = val base ^ val exp % val m) ∧
    (1 ≤ words → val exp = 0 → val (modexpf old base exp m) = 1)

/-- R266: MODEXP's corner cases, on whole commands. -/
def Obligations.ModexpCornerCases : Prop :=
  ∀ s : State, s.Inv →
    ∃ t, exec .modexp s = .next t ∧
      (val s.blk.opb = 0 → val t.blk.res0 = 1 ∧ t.blk.err = 0) ∧
      (1 ≤ val s.blk.opb → val s.blk.opc = 1 → val t.blk.res0 = 0) ∧
      (1 ≤ val s.blk.opb → val s.blk.opc = 0 → t.blk.err = 2 ∧ t.blk.res0 = s.blk.res0) ∧
      (val s.blk.opb = 1 → val s.blk.opc ≠ 0 → val t.blk.res0 = val s.blk.opa % val s.blk.opc) ∧
      (1 ≤ val s.blk.opb → val s.blk.opa = 0 → val s.blk.opc ≠ 0 → val t.blk.res0 = 0)

/-- R263: the loop runs exactly BITLEN(exp) times, and N iterations are enough. -/
def Obligations.ModexpIterationCount : Prop :=
  ∀ (words : Nat) (old : DivRegs) (base exp m : Bank),
    base.length = words → exp.length = words → m.length = words →
    (expTrace old (bits exp) (expStart base exp m)).length = bitlen exp ∧ bitlen exp ≤ 32 * words ∧
    ∀ more, expLoop old (bits exp + more) (expStart base exp m) = expLoop old (bits exp) (expStart base exp m)

/-- 10_state.md R33, R45, 40_sequencer.md R142: a command's outcome depends on nothing but the operands it reads: two states
that agree on OPA, OPB and, for MODEXP, OPC complete with one and the same result, whatever else they hold. -/
def Obligations.OutcomeDependsOnOperandsOnly : Prop :=
  ∀ (i : Instr) (s s' : State), s.blk.opa = s'.blk.opa → s.blk.opb = s'.blk.opb →
    (i = .modexp → s.blk.opc = s'.blk.opc) →
    ∃ r, exec i s = .next (complete r s) ∧ exec i s' = .next (complete r s')

/-- The frame of all five commands through the host's reads (R143): every register but STATUS and the results reads as before. -/
def Obligations.CommandsLeaveOtherRegisters : Prop :=
  ∀ (i : Instr) (s : State), ∃ t, exec i s = .next t ∧ CompletionFrame s t ∧
    (∀ reg, reg ≠ .status → (∀ k, reg ≠ .res0 k) → (∀ k, reg ≠ .res1 k) →
      readReg t.cfg.words t.blk reg = readReg s.cfg.words s.blk reg) ∧
    (i ≠ .divmod → ∀ k, readReg t.cfg.words t.blk (.res1 k) = readReg s.cfg.words s.blk (.res1 k))

/-! ### The datapath -/

/-- 41_primitives.md R170, R171, R174: EQ and NE word for word and as numbers, LT and GT as numbers and by the most
significant differing word, ODD and EVEN by bit 0. -/
def Obligations.ComparisonsAreNumeric : Prop :=
  (∀ a b : Bank, a.length = b.length →
    (eqw a b = true ↔ ∀ i < a.length, a[i]? = b[i]?) ∧ (eqw a b = true ↔ val a = val b) ∧
    (neqw a b = true ↔ val a ≠ val b) ∧ (ltw a b = true ↔ val a < val b) ∧ (gtw a b = true ↔ val b < val a) ∧
    (oddw a = true ↔ val a % 2 = 1) ∧ (evenw a = true ↔ val a % 2 = 0)) ∧
  ∀ (lowA lowB high : Bank) (x y : Word), lowA.length = lowB.length →
    (x.toNat < y.toNat → ltw (lowA ++ x :: high) (lowB ++ y :: high) = true) ∧
    (y.toNat < x.toNat → ltw (lowA ++ x :: high) (lowB ++ y :: high) = false) ∧ ltw high high = false

/-- R172, R173: clz32 is 31 minus the index of the highest 1 bit, and BITLEN is the least k with `val a < 2^k`. The meaning
of clz32 is PRESUMED (log 7): R172 marks it "from general knowledge, not in source". -/
def Obligations.BitLengthIsLeastBound : Prop :=
  (∀ (a : Bank) (k : Nat), bitlen a ≤ k ↔ val a < 2 ^ k) ∧
  (∀ x : Word, x ≠ 0 → clz32 x ≤ 31 ∧ x.getLsbD (31 - clz32 x) = true ∧ ∀ j, 31 - clz32 x < j → x.getLsbD j = false) ∧
  ∀ (low high : Bank) (x : Word), x ≠ 0 → (∀ y ∈ high, y = 0) →
    bitlen (low ++ x :: high) = low.length * 32 + (32 - clz32 x)

/-- R175, R176: the shifts as numbers, and their word-level forms. -/
def Obligations.ShiftsAsNumbersAndByWords : Prop :=
  ∀ (a : Bank) (k : Nat),
    val (shl a k) = (if 32 * a.length ≤ k then 0 else val a * 2 ^ k % 2 ^ (32 * a.length)) ∧
    val (shr a k) = (if 32 * a.length ≤ k then 0 else val a / 2 ^ k) ∧
    shlWords a k = shl a k ∧ shrWords a k = shr a k

/-- R177, R178: ripple carry and ripple borrow are addition and subtraction mod 2^N. -/
def Obligations.AddAndSubtractModulo : Prop :=
  ∀ a b : Bank, a.length = b.length →
    val (addw a b) = (val a + val b) % 2 ^ (32 * a.length) ∧
    (val b ≤ val a → val (subw a b) = val a - val b) ∧
    (val a < val b → val (subw a b) = 2 ^ (32 * a.length) + val a - val b)

/-- R179: product accumulation gives the low N bits of the true product. -/
def Obligations.MultiplyModulo : Prop :=
  ∀ a b : Bank, a.length = b.length →
    (mulw a b).length = a.length ∧ val (mulw a b) = val a * val b % 2 ^ (32 * a.length)

/-- R180: the laws of the word-level functions. -/
def Obligations.WordLevelLaws : Prop :=
  ∀ a b c : Bank, a.length = b.length → a.length = c.length →
    addw a b = addw b a ∧ addw (addw a b) c = addw a (addw b c) ∧
    addw a (subw (ofVal a.length 0) a) = ofVal a.length 0 ∧ addw (subw a b) b = a ∧
    mulw a b = mulw b a ∧ mulw a (ofVal a.length 1) = a ∧ mulw a (ofVal a.length 0) = ofVal a.length 0

/-- R207: MUL's corner cases. -/
def Obligations.MulCornerCases : Prop :=
  ∀ s : State, Block.Wf s.cfg.words s.blk →
    ∃ t, exec .mul s = .next t ∧
      (val s.blk.opa = 0 ∨ val s.blk.opb = 0 → val t.blk.res0 = 0) ∧
      (val s.blk.opb = 1 → t.blk.res0 = s.blk.opa) ∧
      (1 ≤ s.cfg.words → val s.blk.opa = 2 ^ (32 * s.cfg.words) - 1 → val s.blk.opb = 2 ^ (32 * s.cfg.words) - 1 →
        val t.blk.res0 = 1) ∧
      (s.cfg.words = 2 → val s.blk.opa = 2 ^ 32 → val s.blk.opb = 2 ^ 32 → val t.blk.res0 = 0) ∧
      (s.cfg.words = 2 → val s.blk.opa = 0xFFFFFFFF → val s.blk.opb = 0xFFFFFFFF →
        val t.blk.res0 = 0xFFFFFFFE00000001) ∧
      (val t.blk.res0 = val s.blk.opa * val s.blk.opb ↔ val s.blk.opa * val s.blk.opb < 2 ^ (32 * s.cfg.words))

/-- R201, R204: ADD's and SUB's corner cases. -/
def Obligations.AddAndSubCornerCases : Prop :=
  ∀ s : State, Block.Wf s.cfg.words s.blk →
    ∃ t u, exec .add s = .next t ∧ exec .sub s = .next u ∧
      (2 ^ (32 * s.cfg.words) ≤ val s.blk.opa + val s.blk.opb →
        val t.blk.res0 = val s.blk.opa + val s.blk.opb - 2 ^ (32 * s.cfg.words) ∧ t.blk.err = 0) ∧
      (s.cfg.words = 2 → val s.blk.opa = 0xFFFFFFFF → val s.blk.opb = 1 → val t.blk.res0 = 0x100000000) ∧
      (val s.blk.opb = 0 → t.blk.res0 = s.blk.opa) ∧
      (s.blk.opa = s.blk.opb → val t.blk.res0 = 2 * val s.blk.opa % 2 ^ (32 * s.cfg.words)) ∧
      (val s.blk.opa < val s.blk.opb → val u.blk.res0 = 2 ^ (32 * s.cfg.words) + val s.blk.opa - val s.blk.opb ∧ u.blk.err = 0) ∧
      (s.blk.opa = s.blk.opb → val u.blk.res0 = 0) ∧
      (s.cfg.words = 2 → val s.blk.opa = 0x100000000 → val s.blk.opb = 1 → val u.blk.res0 = 0xFFFFFFFF) ∧
      (val s.blk.opa = 0 → val (addw s.blk.opb u.blk.res0) = 0)

/-- 43_divmod.md R233: the long division is exact for every divisor that is not 0, and at every iteration the top-bit test
selects exactly when `rem >= c`. -/
def Obligations.LongDivisionIsExact : Prop :=
  ∀ (old : DivRegs) (a b : Bank), a.length = b.length → val b ≠ 0 →
    val (divw old a b).1 = val a / val b ∧ val (divw old a b).2 = val a % val b ∧
    (val b ≤ val a → ∀ d ∈ divTrace (bits a) (divStart old a b),
      (topBit (subw d.rem d.c) = false ↔ val d.c ≤ val d.rem))

/-- R235: partial-remainder tracking at the start of every iteration, and after the last. -/
def Obligations.PartialRemainderTracking : Prop :=
  ∀ (old : DivRegs) (a b : Bank), a.length = b.length → val b ≠ 0 → val b ≤ val a →
    (∀ d ∈ divTrace (bits a) (divStart old a b),
      val a = val d.quo * val b + val d.rem ∧ val d.rem < 2 * val d.c ∧ val d.c = val b * val d.e ∧ val d.e = 2 ^ d.bd) ∧
    (divTrace (bits a) (divStart old a b)).map DivRegs.bd = (List.range (bitlen a - bitlen b + 1)).reverse ∧
    val (divLoop (bits a) (divStart old a b)).rem < val b

/-- R234: no iteration when a < b; otherwise BITLEN(a) - BITLEN(b) + 1, at least 1 and at most N, and more fuel changes
nothing. -/
def Obligations.DivisionIterationCount : Prop :=
  ∀ (old : DivRegs) (a b : Bank), a.length = b.length → val b ≠ 0 →
    (val a < val b → divw old a b = (ofVal a.length 0, a)) ∧
    (val b ≤ val a →
      (divTrace (bits a) (divStart old a b)).length = bitlen a - bitlen b + 1 ∧
      bitlen b ≤ bitlen a ∧ bitlen a - bitlen b + 1 ≤ 32 * a.length ∧
      ∀ more, divLoop (bits a + more) (divStart old a b) = divLoop (bits a) (divStart old a b))

/-! ### A host that runs a program -/

/-- 30_encoding.md R107, WAIT: "repeat `R 0x0004 -> s` until `s[0] = 0`". Each poll of a host at a WAIT is one STATUS read that binds `s`
and changes nothing in the block; the WAIT is over after it exactly when it read BUSY = 0. -/
def Obligations.WaitPollsUntilIdle : Prop :=
  ∀ (h : HostRun) (rest : List Pseudo), h.machine.cfg.wellFormed = true → h.program = .wait :: rest → h.taken = 0 →
    ∃ h', h.hostMove = .next h' ∧
      h'.machine = { h.machine with responses := (h.master, .data (statusWord h.machine.blk)) :: h.machine.responses } ∧
      h'.valueOf .waitStatus = some (statusWord h.machine.blk).toNat ∧ h'.taken = 0 ∧ h'.master = h.master ∧
      (h.machine.blk.seq = .busy → h'.program = .wait :: rest) ∧ (h.machine.blk.seq = .idle → h'.program = rest)

/-- R107, "`WAIT` terminates because every accepted command completes after finitely many accesses": however many polls come
before the completion, each of them leaves the host in its WAIT, and the first poll after it ends the WAIT, with the
results in the block that the completion left (the order of moves is the model's choice, log 2). -/
def Obligations.WaitEndsAfterTheCompletion : Prop :=
  ∀ (h : HostRun) (rest : List Pseudo) (polls : Nat),
    h.machine.cfg.wellFormed = true → h.machine.blk.seq = .busy → h.machine.turns = [] →
    h.program = .wait :: rest → h.taken = 0 →
    ∃ t, step h.machine = .next t ∧ t.blk.seq = .idle ∧
      (∃ h', h.moves (List.replicate polls .host) = .next h' ∧ h'.program = .wait :: rest ∧
        h'.machine.blk = h.machine.blk) ∧
      ∃ h', h.moves (List.replicate polls .host ++ [.machine, .host]) = .next h' ∧
        h'.program = rest ∧ h'.taken = 0 ∧ h'.machine.blk = t.blk ∧
        h'.valueOf .waitStatus = some (statusWord t.blk).toNat ∧
        h'.machine.responses = (h.master, .data (statusWord t.blk)) ::
          (List.replicate polls (h.master, .data (statusWord h.machine.blk)) ++ h.machine.responses)

/-- R107, STORE: the W reads of a host at `STORE RESy -> X` bind X to the value of RESy, and change nothing in the block. -/
def Obligations.StoreBindsTheResult : Prop :=
  ∀ (h : HostRun) (rest : List Pseudo) (y : ResultReg) (x : String),
    h.machine.Inv → h.program = .store y x :: rest → h.taken = 0 →
    ∃ h', h.moves (List.replicate h.machine.cfg.words .host) = .next h' ∧
      h'.program = rest ∧ h'.taken = 0 ∧ h'.machine.blk = h.machine.blk ∧ h'.machine.turns = h.machine.turns ∧
      h'.valueOf (.named x) = some (val (match y with | .res0 => h.machine.blk.res0 | .res1 => h.machine.blk.res1))
end

