-- ==== Sys2Proof/Laws/State.lean ====
section
/-! SUPPORT. One lemma per field per update: what each operation leaves in each field. -/

namespace Sys2Proof.Machine

/-! accept -/

@[simp] theorem accept_seq (v : Word) (b : Block) : (accept v b).seq = .busy := rfl
@[simp] theorem accept_opa (v : Word) (b : Block) : (accept v b).opa = b.opa := rfl
@[simp] theorem accept_opb (v : Word) (b : Block) : (accept v b).opb = b.opb := rfl
@[simp] theorem accept_opc (v : Word) (b : Block) : (accept v b).opc = b.opc := rfl
@[simp] theorem accept_res0 (v : Word) (b : Block) : (accept v b).res0 = b.res0 := rfl
@[simp] theorem accept_res1 (v : Word) (b : Block) : (accept v b).res1 = b.res1 := rfl
@[simp] theorem accept_cmdLast (v : Word) (b : Block) : (accept v b).cmdLast = v := rfl
@[simp] theorem accept_pend (v : Word) (b : Block) : (accept v b).pend = v := rfl
@[simp] theorem accept_done (v : Word) (b : Block) : (accept v b).done = false := rfl
@[simp] theorem accept_ovr (v : Word) (b : Block) : (accept v b).ovr = b.ovr := rfl
@[simp] theorem accept_err (v : Word) (b : Block) : (accept v b).err = 0 := rfl
@[simp] theorem accept_doneIE (v : Word) (b : Block) : (accept v b).doneIE = b.doneIE := rfl
@[simp] theorem accept_hidden (v : Word) (b : Block) : (accept v b).hidden = b.hidden := rfl

/-! dropWrite -/

@[simp] theorem dropWrite_seq (b : Block) : (dropWrite b).seq = b.seq := rfl
@[simp] theorem dropWrite_opa (b : Block) : (dropWrite b).opa = b.opa := rfl
@[simp] theorem dropWrite_opb (b : Block) : (dropWrite b).opb = b.opb := rfl
@[simp] theorem dropWrite_opc (b : Block) : (dropWrite b).opc = b.opc := rfl
@[simp] theorem dropWrite_res0 (b : Block) : (dropWrite b).res0 = b.res0 := rfl
@[simp] theorem dropWrite_res1 (b : Block) : (dropWrite b).res1 = b.res1 := rfl
@[simp] theorem dropWrite_cmdLast (b : Block) : (dropWrite b).cmdLast = b.cmdLast := rfl
@[simp] theorem dropWrite_pend (b : Block) : (dropWrite b).pend = b.pend := rfl
@[simp] theorem dropWrite_done (b : Block) : (dropWrite b).done = b.done := rfl
@[simp] theorem dropWrite_ovr (b : Block) : (dropWrite b).ovr = true := rfl
@[simp] theorem dropWrite_err (b : Block) : (dropWrite b).err = b.err := rfl
@[simp] theorem dropWrite_doneIE (b : Block) : (dropWrite b).doneIE = b.doneIE := rfl
@[simp] theorem dropWrite_hidden (b : Block) : (dropWrite b).hidden = b.hidden := rfl

/-! writeStatus -/

@[simp] theorem writeStatus_seq (v : Word) (b : Block) : (writeStatus v b).seq = b.seq := rfl
@[simp] theorem writeStatus_opa (v : Word) (b : Block) : (writeStatus v b).opa = b.opa := rfl
@[simp] theorem writeStatus_opb (v : Word) (b : Block) : (writeStatus v b).opb = b.opb := rfl
@[simp] theorem writeStatus_opc (v : Word) (b : Block) : (writeStatus v b).opc = b.opc := rfl
@[simp] theorem writeStatus_res0 (v : Word) (b : Block) : (writeStatus v b).res0 = b.res0 := rfl
@[simp] theorem writeStatus_res1 (v : Word) (b : Block) : (writeStatus v b).res1 = b.res1 := rfl
@[simp] theorem writeStatus_cmdLast (v : Word) (b : Block) : (writeStatus v b).cmdLast = b.cmdLast := rfl
@[simp] theorem writeStatus_pend (v : Word) (b : Block) : (writeStatus v b).pend = b.pend := rfl
@[simp] theorem writeStatus_done (v : Word) (b : Block) : (writeStatus v b).done = (b.done && !v.getLsbD 1) := rfl
@[simp] theorem writeStatus_ovr (v : Word) (b : Block) : (writeStatus v b).ovr = (b.ovr && !v.getLsbD 2) := rfl
@[simp] theorem writeStatus_err (v : Word) (b : Block) : (writeStatus v b).err = b.err := rfl
@[simp] theorem writeStatus_doneIE (v : Word) (b : Block) : (writeStatus v b).doneIE = b.doneIE := rfl
@[simp] theorem writeStatus_hidden (v : Word) (b : Block) : (writeStatus v b).hidden = b.hidden := rfl

/-! writeIrqen -/

@[simp] theorem writeIrqen_seq (v : Word) (b : Block) : (writeIrqen v b).seq = b.seq := rfl
@[simp] theorem writeIrqen_opa (v : Word) (b : Block) : (writeIrqen v b).opa = b.opa := rfl
@[simp] theorem writeIrqen_opb (v : Word) (b : Block) : (writeIrqen v b).opb = b.opb := rfl
@[simp] theorem writeIrqen_opc (v : Word) (b : Block) : (writeIrqen v b).opc = b.opc := rfl
@[simp] theorem writeIrqen_res0 (v : Word) (b : Block) : (writeIrqen v b).res0 = b.res0 := rfl
@[simp] theorem writeIrqen_res1 (v : Word) (b : Block) : (writeIrqen v b).res1 = b.res1 := rfl
@[simp] theorem writeIrqen_cmdLast (v : Word) (b : Block) : (writeIrqen v b).cmdLast = b.cmdLast := rfl
@[simp] theorem writeIrqen_pend (v : Word) (b : Block) : (writeIrqen v b).pend = b.pend := rfl
@[simp] theorem writeIrqen_done (v : Word) (b : Block) : (writeIrqen v b).done = b.done := rfl
@[simp] theorem writeIrqen_ovr (v : Word) (b : Block) : (writeIrqen v b).ovr = b.ovr := rfl
@[simp] theorem writeIrqen_err (v : Word) (b : Block) : (writeIrqen v b).err = b.err := rfl
@[simp] theorem writeIrqen_doneIE (v : Word) (b : Block) : (writeIrqen v b).doneIE = v.getLsbD 0 := rfl
@[simp] theorem writeIrqen_hidden (v : Word) (b : Block) : (writeIrqen v b).hidden = b.hidden := rfl

/-! takeError -/

@[simp] theorem takeError_seq (e : CmdError) (b : Block) : (takeError e b).seq = .idle := rfl
@[simp] theorem takeError_opa (e : CmdError) (b : Block) : (takeError e b).opa = b.opa := rfl
@[simp] theorem takeError_opb (e : CmdError) (b : Block) : (takeError e b).opb = b.opb := rfl
@[simp] theorem takeError_opc (e : CmdError) (b : Block) : (takeError e b).opc = b.opc := rfl
@[simp] theorem takeError_res0 (e : CmdError) (b : Block) : (takeError e b).res0 = b.res0 := rfl
@[simp] theorem takeError_res1 (e : CmdError) (b : Block) : (takeError e b).res1 = b.res1 := rfl
@[simp] theorem takeError_cmdLast (e : CmdError) (b : Block) : (takeError e b).cmdLast = b.cmdLast := rfl
@[simp] theorem takeError_pend (e : CmdError) (b : Block) : (takeError e b).pend = b.pend := rfl
@[simp] theorem takeError_done (e : CmdError) (b : Block) : (takeError e b).done = true := rfl
@[simp] theorem takeError_ovr (e : CmdError) (b : Block) : (takeError e b).ovr = b.ovr := rfl
@[simp] theorem takeError_err (e : CmdError) (b : Block) : (takeError e b).err = e.code := rfl
@[simp] theorem takeError_doneIE (e : CmdError) (b : Block) : (takeError e b).doneIE = b.doneIE := rfl
@[simp] theorem takeError_hidden (e : CmdError) (b : Block) : (takeError e b).hidden = b.hidden := rfl

/-! commitResults -/

@[simp] theorem commitResults_seq (x y : Option Bank) (b : Block) : (commitResults x y b).seq = .idle := rfl
@[simp] theorem commitResults_opa (x y : Option Bank) (b : Block) : (commitResults x y b).opa = b.opa := rfl
@[simp] theorem commitResults_opb (x y : Option Bank) (b : Block) : (commitResults x y b).opb = b.opb := rfl
@[simp] theorem commitResults_opc (x y : Option Bank) (b : Block) : (commitResults x y b).opc = b.opc := rfl
@[simp] theorem commitResults_res0 (x y : Option Bank) (b : Block) : (commitResults x y b).res0 = x.getD b.res0 := rfl
@[simp] theorem commitResults_res1 (x y : Option Bank) (b : Block) : (commitResults x y b).res1 = y.getD b.res1 := rfl
@[simp] theorem commitResults_cmdLast (x y : Option Bank) (b : Block) : (commitResults x y b).cmdLast = b.cmdLast := rfl
@[simp] theorem commitResults_pend (x y : Option Bank) (b : Block) : (commitResults x y b).pend = b.pend := rfl
@[simp] theorem commitResults_done (x y : Option Bank) (b : Block) : (commitResults x y b).done = true := rfl
@[simp] theorem commitResults_ovr (x y : Option Bank) (b : Block) : (commitResults x y b).ovr = b.ovr := rfl
@[simp] theorem commitResults_err (x y : Option Bank) (b : Block) : (commitResults x y b).err = 0 := rfl
@[simp] theorem commitResults_doneIE (x y : Option Bank) (b : Block) : (commitResults x y b).doneIE = b.doneIE := rfl
@[simp] theorem commitResults_hidden (x y : Option Bank) (b : Block) : (commitResults x y b).hidden = b.hidden := rfl

/-! respond -/

@[simp] theorem respond_cfg (m : Nat) (r : Response) (s : State) : (respond m r s).cfg = s.cfg := rfl
@[simp] theorem respond_blk (m : Nat) (r : Response) (s : State) : (respond m r s).blk = s.blk := rfl
@[simp] theorem respond_turns (m : Nat) (r : Response) (s : State) : (respond m r s).turns = s.turns := rfl
@[simp] theorem respond_responses (m : Nat) (r : Response) (s : State) : (respond m r s).responses = (m, r) :: s.responses := rfl
@[simp] theorem respond_draws (m : Nat) (r : Response) (s : State) : (respond m r s).draws = s.draws := rfl

/-! raiseBusError -/

@[simp] theorem raiseBusError_cfg (a : Access) (s : State) : (raiseBusError a s).cfg = s.cfg := rfl
@[simp] theorem raiseBusError_blk (a : Access) (s : State) : (raiseBusError a s).blk = s.blk := rfl
@[simp] theorem raiseBusError_turns (a : Access) (s : State) : (raiseBusError a s).turns = s.turns := rfl
@[simp] theorem raiseBusError_responses (a : Access) (s : State) : (raiseBusError a s).responses = (a.master, .busError a.addr) :: s.responses := rfl
@[simp] theorem raiseBusError_draws (a : Access) (s : State) : (raiseBusError a s).draws = s.draws := rfl

/-! popTurn -/

@[simp] theorem popTurn_cfg (s : State) : (popTurn s).cfg = s.cfg := rfl
@[simp] theorem popTurn_blk (s : State) : (popTurn s).blk = s.blk := rfl
@[simp] theorem popTurn_turns (s : State) : (popTurn s).turns = s.turns.tail := rfl
@[simp] theorem popTurn_responses (s : State) : (popTurn s).responses = s.responses := rfl
@[simp] theorem popTurn_draws (s : State) : (popTurn s).draws = s.draws := rfl

/-! dropHidden -/

@[simp] theorem dropHidden_cfg (s : State) : (dropHidden s).cfg = s.cfg := rfl
@[simp] theorem dropHidden_blk (s : State) : (dropHidden s).blk = { s.blk with hidden := freeHidden s.cfg.words s.draws } := rfl
@[simp] theorem dropHidden_turns (s : State) : (dropHidden s).turns = s.turns := rfl
@[simp] theorem dropHidden_responses (s : State) : (dropHidden s).responses = s.responses := rfl
@[simp] theorem dropHidden_draws (s : State) : (dropHidden s).draws = s.draws + 1 := rfl

/-! complete -/

@[simp] theorem complete_cfg (r : CmdResult) (s : State) : (complete r s).cfg = s.cfg := rfl
@[simp] theorem complete_blk (r : CmdResult) (s : State) : (complete r s).blk = { commit r s.blk with hidden := freeHidden s.cfg.words s.draws } := rfl
@[simp] theorem complete_turns (r : CmdResult) (s : State) : (complete r s).turns = s.turns := rfl
@[simp] theorem complete_responses (r : CmdResult) (s : State) : (complete r s).responses = s.responses := rfl
@[simp] theorem complete_draws (r : CmdResult) (s : State) : (complete r s).draws = s.draws + 1 := rfl

/-! resetBlock -/

@[simp] theorem resetBlock_cfg (s : State) : (resetBlock s).cfg = s.cfg := rfl
@[simp] theorem resetBlock_blk (s : State) : (resetBlock s).blk = Block.reset s.cfg.words (freeHidden s.cfg.words s.draws) := rfl
@[simp] theorem resetBlock_turns (s : State) : (resetBlock s).turns = s.turns := rfl
@[simp] theorem resetBlock_responses (s : State) : (resetBlock s).responses = s.responses := rfl
@[simp] theorem resetBlock_draws (s : State) : (resetBlock s).draws = s.draws + 1 := rfl

/-! fetchNext -/

@[simp] theorem fetchNext_cfg (v : Word) (s : State) : (fetchNext v s).cfg = s.cfg := rfl
@[simp] theorem fetchNext_blk (v : Word) (s : State) : (fetchNext v s).blk = accept v s.blk := rfl
@[simp] theorem fetchNext_turns (v : Word) (s : State) : (fetchNext v s).turns = .sequencer :: s.turns := rfl
@[simp] theorem fetchNext_responses (v : Word) (s : State) : (fetchNext v s).responses = s.responses := rfl
@[simp] theorem fetchNext_draws (v : Word) (s : State) : (fetchNext v s).draws = s.draws := rfl

/-! afterAccess -/

@[simp] theorem afterAccess_cfg (a : Access) (rest : List Turn) (r : Response) (c : Block) (s : State) : (afterAccess s a rest r c).cfg = s.cfg := rfl
@[simp] theorem afterAccess_blk (a : Access) (rest : List Turn) (r : Response) (c : Block) (s : State) : (afterAccess s a rest r c).blk = c := rfl
@[simp] theorem afterAccess_turns (a : Access) (rest : List Turn) (r : Response) (c : Block) (s : State) : (afterAccess s a rest r c).turns = rest := rfl
@[simp] theorem afterAccess_responses (a : Access) (rest : List Turn) (r : Response) (c : Block) (s : State) : (afterAccess s a rest r c).responses = (a.master, r) :: s.responses := rfl
@[simp] theorem afterAccess_draws (a : Access) (rest : List Turn) (r : Response) (c : Block) (s : State) : (afterAccess s a rest r c).draws = s.draws := rfl

/-! commit -/

@[simp] theorem commit_ok (x y : Option Bank) (b : Block) : commit (.ok x y) b = commitResults x y b := rfl
@[simp] theorem commit_error (e : CmdError) (b : Block) : commit (.error e) b = takeError e b := rfl
@[simp] theorem commit_opa (r : CmdResult) (b : Block) : (commit r b).opa = b.opa := by cases r <;> rfl
@[simp] theorem commit_opb (r : CmdResult) (b : Block) : (commit r b).opb = b.opb := by cases r <;> rfl
@[simp] theorem commit_opc (r : CmdResult) (b : Block) : (commit r b).opc = b.opc := by cases r <;> rfl
@[simp] theorem commit_cmdLast (r : CmdResult) (b : Block) : (commit r b).cmdLast = b.cmdLast := by cases r <;> rfl
@[simp] theorem commit_pend (r : CmdResult) (b : Block) : (commit r b).pend = b.pend := by cases r <;> rfl
@[simp] theorem commit_ovr (r : CmdResult) (b : Block) : (commit r b).ovr = b.ovr := by cases r <;> rfl
@[simp] theorem commit_doneIE (r : CmdResult) (b : Block) : (commit r b).doneIE = b.doneIE := by cases r <;> rfl
@[simp] theorem commit_hidden (r : CmdResult) (b : Block) : (commit r b).hidden = b.hidden := by cases r <;> rfl
@[simp] theorem commit_seq (r : CmdResult) (b : Block) : (commit r b).seq = .idle := by cases r <;> rfl
@[simp] theorem commit_done (r : CmdResult) (b : Block) : (commit r b).done = true := by cases r <;> rfl

end Sys2Proof.Machine
end

