-- ==== Sys2Proof/Laws/Datapath.lean ====
section
/-! SUPPORT. The representation of numbers by registers (00_scope.md R10) and the width of every datapath result. -/

namespace Sys2Proof.Machine

/-! ### Values -/

@[simp] theorem val_nil : val [] = 0 := rfl

theorem val_cons (w : Word) (ws : Bank) : val (w :: ws) = w.toNat + 2 ^ 32 * val ws := rfl

theorem pow_words_succ (n : Nat) : 2 ^ (32 * (n + 1)) = 2 ^ 32 * 2 ^ (32 * n) := by
  rw [show 32 * (n + 1) = 32 + 32 * n by omega, pow_add]

theorem val_lt (a : Bank) : val a < 2 ^ (32 * a.length) := by
  induction a with
  | nil => simp [val]
  | cons w ws ih =>
    rw [List.length_cons, pow_words_succ, val_cons]
    have := w.isLt
    nlinarith

theorem val_injective : ∀ (a b : Bank), a.length = b.length → val a = val b → a = b := by
  intro a
  induction a with
  | nil => intro b h _; cases b <;> simp_all
  | cons x xs ih =>
    intro b h hv
    cases b with
    | nil => simp at h
    | cons y ys =>
      simp only [val_cons] at hv
      have hx := x.isLt
      have hy := y.isLt
      have h1 : x.toNat = y.toNat := by omega
      have h2 : val xs = val ys := by omega
      rw [BitVec.eq_of_toNat_eq h1, ih ys (by simpa using h) h2]

@[simp] theorem ofVal_length (n v : Nat) : (ofVal n v).length = n := by simp [ofVal]

theorem word_zero (v : Nat) : word v 0 = BitVec.ofNat 32 v := by simp [word]

theorem word_succ (v i : Nat) : word v (i + 1) = word (v / 2 ^ 32) i := by
  simp only [word, Nat.div_div_eq_div_mul, ← pow_add]
  congr 3; omega

theorem ofVal_succ (n v : Nat) : ofVal (n + 1) v = BitVec.ofNat 32 v :: ofVal n (v / 2 ^ 32) := by
  simp only [ofVal, List.range_succ_eq_map, List.map_cons, List.map_map, word_zero]
  congr 1
  exact List.map_congr_left fun i _ => word_succ v i

theorem val_ofVal (n v : Nat) : val (ofVal n v) = v % 2 ^ (32 * n) := by
  induction n generalizing v with
  | zero => simp [ofVal, Nat.mod_one]
  | succ n ih =>
    rw [ofVal_succ, val_cons, ih, pow_words_succ, BitVec.toNat_ofNat, Nat.mod_mul]

theorem ofVal_val (a : Bank) : ofVal a.length (val a) = a :=
  val_injective _ _ (by simp) (by rw [val_ofVal, Nat.mod_eq_of_lt (val_lt a)])

theorem zeroBank_eq (n : Nat) : zeroBank n = ofVal n 0 := by
  apply List.ext_getElem <;> simp [zeroBank, ofVal, word]

@[simp] theorem zeroBank_length (n : Nat) : (zeroBank n).length = n := by simp [zeroBank]

@[simp] theorem val_zeroBank (n : Nat) : val (zeroBank n) = 0 := by rw [zeroBank_eq, val_ofVal]; simp

/-! ### Widths of the word-level functions -/

@[simp] theorem shl_length (a : Bank) (k : Nat) : (shl a k).length = a.length := by
  unfold shl; split <;> simp

@[simp] theorem shr_length (a : Bank) (k : Nat) : (shr a k).length = a.length := by
  unfold shr; split <;> simp

theorem addRipple_length : ∀ (a b : Bank) (c : Nat), (addRipple a b c).length = min a.length b.length
  | [], b, c => by simp [addRipple]
  | _ :: _, [], c => by simp [addRipple]
  | _ :: as, _ :: bs, c => by simp [addRipple, addRipple_length as bs]

theorem subRipple_length : ∀ (a b : Bank) (c : Nat), (subRipple a b c).length = min a.length b.length
  | [], b, c => by simp [subRipple]
  | _ :: _, [], c => by simp [subRipple]
  | _ :: as, _ :: bs, c => by
    simp only [subRipple]; split <;> simp [subRipple_length as bs]

theorem mulRow_length (x : Word) : ∀ (b acc : Bank) (c : Nat), (mulRow x b acc c).length = acc.length
  | [], acc, c => by simp [mulRow]
  | _ :: _, [], c => by simp [mulRow]
  | _ :: bs, _ :: rs, c => by simp [mulRow, mulRow_length x bs rs]

theorem mulRows_length : ∀ (a b acc : Bank), (mulRows a b acc).length = acc.length
  | [], b, acc => by simp [mulRows]
  | x :: as, b, acc => by
    have h := mulRow_length x b acc 0
    simp only [mulRows]
    cases hr : mulRow x b acc 0 with
    | nil => simp [hr] at h; simp [← h]
    | cons low rest =>
      rw [hr] at h
      simp [mulRows_length as b rest, ← h]

theorem addw_length (a b : Bank) : (addw a b).length = min a.length b.length := addRipple_length a b 0

theorem subw_length (a b : Bank) : (subw a b).length = min a.length b.length := subRipple_length a b 0

theorem mulw_length (a b : Bank) : (mulw a b).length = a.length := by simp [mulw, mulRows_length]

theorem topBit_cons (w v : Word) (ws : Bank) : topBit (w :: v :: ws) = topBit (v :: ws) := by simp [topBit]

/-! ### The divider: widths, and that the register DIVW does not write (R231) plays no part -/

theorem divIter_lengths (n : Nat) (d : DivRegs) (h : d.rem.length = n ∧ d.quo.length = n ∧ d.c.length = n ∧ d.e.length = n) :
    (divIter d).rem.length = n ∧ (divIter d).quo.length = n ∧ (divIter d).c.length = n ∧ (divIter d).e.length = n := by
  obtain ⟨h1, h2, h3, h4⟩ := h
  simp only [divIter, shr_length]
  refine ⟨?_, ?_, h3, h4⟩ <;> split <;> simp [addw_length, subw_length, *]

theorem divLoop_lengths (n : Nat) : ∀ (f : Nat) (d : DivRegs), (d.rem.length = n ∧ d.quo.length = n ∧ d.c.length = n ∧ d.e.length = n) →
    (divLoop f d).rem.length = n ∧ (divLoop f d).quo.length = n
  | 0, d, h => ⟨h.1, h.2.1⟩
  | f + 1, d, h => by
    have h' := divIter_lengths n d h
    simp only [divLoop]
    split
    · exact ⟨h'.1, h'.2.1⟩
    · exact divLoop_lengths n f _ h'

theorem divw_lengths (old : DivRegs) (a b : Bank) (h : a.length = b.length) :
    (divw old a b).1.length = a.length ∧ (divw old a b).2.length = a.length := by
  unfold divw; split
  · simp
  · have := divLoop_lengths a.length (bits a) (divStart old a b) (by simp [divStart, h])
    exact ⟨this.2, this.1⟩

theorem divLoop_r : ∀ (f : Nat) (d : DivRegs) (x : Bank),
    (divLoop f { d with r := x }).quo = (divLoop f d).quo ∧ (divLoop f { d with r := x }).rem = (divLoop f d).rem
  | 0, d, x => ⟨rfl, rfl⟩
  | f + 1, d, x => by simp [divLoop, divIter]

theorem divw_old (o o' : DivRegs) (a b : Bank) : divw o a b = divw o' a b := by
  unfold divw
  split
  · rfl
  · have := divLoop_r (bits a) (divStart o a b) o'.r
    have e : divStart o' a b = { divStart o a b with r := o'.r } := rfl
    simp only [e, this]

/-! ### The exponentiation engine -/

theorem expIter_lengths (n : Nat) (old : DivRegs) (g : ExpRegs)
    (h1 : g.acc.length = n) (h2 : g.bs.length = n) (h3 : g.ex.length = n) (h4 : g.m.length = n) :
    (expIter old g).acc.length = n ∧ (expIter old g).bs.length = n ∧ (expIter old g).ex.length = n ∧ (expIter old g).m.length = n := by
  have k1 := (divw_lengths old (mulw g.acc g.bs) g.m (by rw [mulw_length, h1, h4])).2
  have k2 := (divw_lengths old (mulw g.bs g.bs) g.m (by rw [mulw_length, h2, h4])).2
  rw [mulw_length, h1] at k1
  rw [mulw_length, h2] at k2
  simp only [expIter, shr_length, remw, k2, h3, h4, and_true]
  split <;> simp [*]

theorem modexpf_old (o o' : DivRegs) (a b m : Bank) : modexpf o a b m = modexpf o' a b m := by
  have h1 : ∀ g, expIter o g = expIter o' g := fun g => by simp [expIter, remw, divw_old o o']
  have h2 : ∀ f g, expLoop o f g = expLoop o' f g := by
    intro f; induction f with
    | zero => intro g; rfl
    | succ f ih => intro g; simp [expLoop, h1, ih]
  simp [modexpf, h2]

theorem expLoop_acc_length (n : Nat) (old : DivRegs) : ∀ (f : Nat) (g : ExpRegs), g.acc.length = n → g.bs.length = n → g.ex.length = n → g.m.length = n →
    (expLoop old f g).acc.length = n
  | 0, g, h, _, _, _ => h
  | f + 1, g, h1, h2, h3, h4 => by
    obtain ⟨l1, l2, l3, l4⟩ := expIter_lengths n old g h1 h2 h3 h4
    simp only [expLoop]; split
    · exact expLoop_acc_length n old f _ l1 l2 l3 l4
    · exact h1

theorem modexpf_length (n : Nat) (old : DivRegs) (a b m : Bank) (h1 : a.length = n) (h2 : b.length = n) (h3 : m.length = n) :
    (modexpf old a b m).length = n := by
  exact expLoop_acc_length n old _ _ (by simp [expStart, h1]) h1 h2 h3

end Sys2Proof.Machine
end

