-- ==== Sys2Proof/Laws/Ops.lean ====
section
/-! SUPPORT. For each shared operation, once, everything it can do; callers cite these and do not unfold it. -/

namespace Sys2Proof.Machine

/-! ### Sequencer state and status -/

theorem isBusy_of_busy {b : Block} (h : b.seq = .busy) : isBusy b = true := by simp [isBusy, h]

theorem isBusy_of_idle {b : Block} (h : b.seq = .idle) : isBusy b = false := by simp [isBusy, h]

/-- Where each field of STATUS stands (10_state.md R36). -/
theorem statusWord_fields (b : Block) :
    (statusWord b).getLsbD 0 = isBusy b ∧ (statusWord b).getLsbD 1 = b.done ∧ (statusWord b).getLsbD 2 = b.ovr ∧
    (statusWord b).extractLsb' 4 4 = b.err := by
  have key : ∀ (e : BitVec 4) (o d s : Bool),
      let w : Word := (0 : BitVec 24) ++ e ++ (0 : BitVec 1) ++ BitVec.ofBool o ++ BitVec.ofBool d ++ BitVec.ofBool s
      w.getLsbD 0 = s ∧ w.getLsbD 1 = d ∧ w.getLsbD 2 = o ∧ w.extractLsb' 4 4 = e := by decide
  exact key b.err b.ovr b.done (isBusy b)

/-! ### Host accesses -/

theorem serviceAccess_error {s : State} {a : Access} {rest : List Turn} (ht : accessNext s a rest)
    (h : accessReg s.cfg a = none) :
    serviceAccess a (popTurn s) = afterAccess s a rest (.busError a.addr) s.blk := by
  have ht' : s.turns = _ := ht
  simp [serviceAccess, popTurn, h, raiseBusError, respond, afterAccess, ht']

theorem serviceAccess_read {s : State} {a : Access} {rest : List Turn} {reg : Reg} (ht : accessNext s a rest)
    (h : accessReg s.cfg a = some reg) (hk : a.kind = .read) :
    serviceAccess a (popTurn s) = afterAccess s a rest (.data (readReg s.cfg.words s.blk reg)) s.blk := by
  have ht' : s.turns = _ := ht
  simp [serviceAccess, popTurn, h, hk, respond, afterAccess, ht']

theorem serviceAccess_write {s : State} {a : Access} {rest : List Turn} {reg : Reg} {v : Word}
    (ht : accessNext s a rest) (h : accessReg s.cfg a = some reg) (hk : a.kind = .write v) :
    serviceAccess a (popTurn s) = afterAccess s a rest .ack (writeReg v s.blk reg) := by
  have ht' : s.turns = _ := ht
  simp [serviceAccess, popTurn, h, hk, respond, afterAccess, ht']

/-- All a host write can do to the block. -/
theorem writeReg_cases (v : Word) (b : Block) (reg : Reg) :
    writeReg v b reg = b ∨ writeReg v b reg = dropWrite b ∨ writeReg v b reg = accept v b ∨
    writeReg v b reg = writeStatus v b ∨ writeReg v b reg = writeIrqen v b ∨
    (∃ i, writeReg v b reg = { b with opa := b.opa.set i v }) ∨
    (∃ i, writeReg v b reg = { b with opb := b.opb.set i v }) ∨
    (∃ i, writeReg v b reg = { b with opc := b.opc.set i v }) := by
  cases reg <;> simp only [writeReg] <;> (try split) <;> simp <;> tauto

/-- No host write changes the width of a register. -/
theorem writeReg_widths {words : Nat} {b : Block} (v : Word) (reg : Reg) (h : Block.Wf words b) :
    Block.Wf words (writeReg v b reg) := by
  rcases writeReg_cases v b reg with e | e | e | e | e | ⟨i, e⟩ | ⟨i, e⟩ | ⟨i, e⟩ <;> rw [e] <;>
    exact ⟨by simp [h.opa], by simp [h.opb], by simp [h.opc], by simp [h.res0], by simp [h.res1], h.hidden⟩

/-! ### Completion -/

theorem complete_ok (x y : Option Bank) (s : State) : CompletedWith 0 s (complete (.ok x y) s) :=
  ⟨rfl, rfl, rfl, ⟨rfl, rfl, rfl, rfl, rfl, rfl, rfl, rfl, rfl, rfl⟩⟩

theorem complete_error (e : CmdError) (s : State) : CompletedWith e.code s (complete (.error e) s) :=
  ⟨rfl, rfl, rfl, ⟨rfl, rfl, rfl, rfl, rfl, rfl, rfl, rfl, rfl, rfl⟩⟩

theorem complete_frame (r : CmdResult) (s : State) : CompletionFrame s (complete r s) := by
  cases r
  · exact (complete_ok _ _ s).frame
  · exact (complete_error _ s).frame

/-- The one result each command completes with. -/
def resultOf (i : Instr) (b : Block) : CmdResult :=
  match i with
  | .add => resultRes0 (addw b.opa b.opb)
  | .sub => resultRes0 (subw b.opa b.opb)
  | .mul => resultRes0 (mulw b.opa b.opb)
  | .divmod => divmodResult b.hidden.div b.opa b.opb
  | .modexp => modexpResult b.hidden.div b.opa b.opb b.opc

theorem exec_eq (i : Instr) (s : State) : exec i s = .next (complete (resultOf i s.blk) s) := by cases i <;> rfl

/-- The result of the pending word, legal or not. -/
def pendingResult (b : Block) : CmdResult :=
  match decode b.pend with
  | .ok i => resultOf i b
  | .error _ => .error .illegalCmd

theorem completePending_eq (s : State) : completePending s = .next (complete (pendingResult s.blk) s) := by
  unfold completePending pendingResult
  split <;> simp_all [exec_eq, completeIllegal]

/-- The widths the free working registers always have. -/
theorem freeHidden_widths {words : Nat} (draw : Nat) (h : 1 ≤ words) : Hidden.Wf words (freeHidden words draw) := by
  constructor <;> first | exact Nat.mod_lt _ (by omega) | simp [freeHidden, freeBank]

/-! ### The step -/

theorem wellFormed_bounds {p : Params} (h : p.wellFormed = true) :
    1 ≤ p.words ∧ p.words ≤ 1024 ∧ p.base % 0x8000 = 0 := by
  simp [Params.wellFormed, Params.wordsPositive, Params.wordsInBank, Params.baseAligned] at h
  omega

theorem checkParams_none (p : Params) : checkParams p = none ↔ p.wellFormed = true := by
  unfold checkParams Params.wellFormed
  cases h1 : p.wordsPositive <;> cases h2 : p.wordsInBank <;> cases h3 : p.baseAligned <;> simp

theorem step_eq {s : State} (h : s.cfg.wellFormed = true) : step s = takeTurn s := by
  unfold step runTurn
  rw [(checkParams_none _).2 h]

theorem step_next_params {s t : State} (h : step s = .next t) : s.cfg.wellFormed = true := by
  rw [← checkParams_none]
  unfold step runTurn at h
  split at h
  · cases h
  · assumption

@[simp] theorem popTurn_of_nil {s : State} (h : s.turns = []) : popTurn s = s := by
  cases s
  simp_all [popTurn]

/-- Everything a step can be. -/
theorem step_cases {s t : State} (h : step s = .next t) :
    s.cfg.wellFormed = true ∧
    ((∃ a rest, accessNext s a rest ∧ t = serviceAccess a (popTurn s)) ∨
     (sequencerNext s ∧ s.blk.seq = .idle ∧ t = popTurn s) ∨
     (completes s ∧ t = complete (pendingResult s.blk) (popTurn s)) ∨
     (resets s ∧ t = resetBlock (popTurn s))) := by
  have hp := step_next_params h
  refine ⟨hp, ?_⟩
  rw [step_eq hp] at h
  have hseq : sequencerNext s → sequencerTurn (popTurn s) = .next t →
      (sequencerNext s ∧ s.blk.seq = .idle ∧ t = popTurn s) ∨
      (completes s ∧ t = complete (pendingResult s.blk) (popTurn s)) := by
    intro hn hu
    unfold sequencerTurn isBusy at hu
    rw [completePending_eq] at hu
    cases hs : s.blk.seq <;> simp [hs] at hu
    · exact Or.inl ⟨hn, rfl, hu.symm⟩
    · exact Or.inr ⟨⟨hn, hs⟩, hu.symm⟩
  unfold takeTurn at h
  split at h
  next ht =>
    have := hseq (Or.inl ht) (by rw [popTurn_of_nil ht]; exact h)
    tauto
  next a rest ht => exact Or.inl ⟨a, rest, ht, by cases h; rfl⟩
  next rest ht =>
    have := hseq (Or.inr ⟨rest, ht⟩) h
    tauto
  next rest ht => exact Or.inr (Or.inr (Or.inr ⟨⟨rest, ht⟩, by cases h; rfl⟩))

theorem step_access {s : State} {a : Access} {rest : List Turn} (hp : s.cfg.wellFormed = true)
    (ht : accessNext s a rest) : step s = .next (serviceAccess a (popTurn s)) := by
  rw [step_eq hp]
  unfold takeTurn
  rw [ht]

theorem step_completes {s : State} (hp : s.cfg.wellFormed = true) (hc : completes s) :
    step s = .next (complete (pendingResult s.blk) (popTurn s)) := by
  rw [step_eq hp]
  unfold takeTurn
  obtain ⟨h | ⟨rest, h⟩, hb⟩ := hc
  · rw [popTurn_of_nil h]
    simp [h, sequencerTurn, isBusy, hb, completePending_eq]
  · simp [h, sequencerTurn, isBusy, hb, completePending_eq]

theorem step_idle {s : State} (hp : s.cfg.wellFormed = true) (hc : sequencerNext s) (hi : s.blk.seq = .idle) :
    step s = .next (popTurn s) := by
  rw [step_eq hp]
  unfold takeTurn
  obtain h | ⟨rest, h⟩ := hc
  · rw [popTurn_of_nil h]
    simp [h, sequencerTurn, isBusy, hi]
  · simp [h, sequencerTurn, isBusy, hi]

theorem step_reset {s : State} {rest : List Turn} (hp : s.cfg.wellFormed = true) (ht : s.turns = .reset :: rest) :
    step s = .next (resetBlock (popTurn s)) := by
  rw [step_eq hp]
  unfold takeTurn
  rw [ht]

/-- A run peels off its first step. -/
theorem run_succ {s t : State} (k : Nat) (h : step s = .next t) :
    Host.Core.run Sys2Proof.core (k + 1) s = Host.Core.run Sys2Proof.core k t := by
  have h' : Sys2Proof.core.step s = .next t := h
  exact (by simp only [Host.Core.run, h'] :
    Host.Core.run Sys2Proof.core (k + 1) (s : Sys2Proof.core.State) = Host.Core.run Sys2Proof.core k t)

end Sys2Proof.Machine
end

