-- ==== Sys2Proof/Laws/HostProgram.lean ====
section
/-! SUPPORT. The host that runs a program: one lemma per field per update, and once what each move can do. -/

namespace Sys2Proof.Machine

/-! ### Binding and advancing -/

@[simp] theorem bind_machine (x : HostVar) (v : Option Nat) (h : HostRun) : (h.bind x v).machine = h.machine := rfl

@[simp] theorem bind_master (x : HostVar) (v : Option Nat) (h : HostRun) : (h.bind x v).master = h.master := rfl

@[simp] theorem bind_program (x : HostVar) (v : Option Nat) (h : HostRun) : (h.bind x v).program = h.program := rfl

@[simp] theorem bind_taken (x : HostVar) (v : Option Nat) (h : HostRun) : (h.bind x v).taken = h.taken := rfl

@[simp] theorem advance_machine (h : HostRun) : h.advance.machine = h.machine := rfl

@[simp] theorem advance_master (h : HostRun) : h.advance.master = h.master := rfl

@[simp] theorem advance_program (h : HostRun) : h.advance.program = h.program.tail := rfl

@[simp] theorem advance_taken (h : HostRun) : h.advance.taken = 0 := rfl

@[simp] theorem valueOf_advance (x : HostVar) (h : HostRun) : h.advance.valueOf x = h.valueOf x := rfl

/-- A variable has the value of its latest read. -/
@[simp] theorem valueOf_bind_self (x : HostVar) (v : Option Nat) (h : HostRun) : (h.bind x v).valueOf x = v := by
  simp [HostRun.valueOf, HostRun.bind]

/-- Binding a variable leaves every other variable. -/
theorem valueOf_bind_ne {x y : HostVar} (v : Option Nat) (h : HostRun) (hne : y ≠ x) :
    (h.bind x v).valueOf y = h.valueOf y := by
  have : (y == x) = false := by simpa using hne
  simp [HostRun.valueOf, HostRun.bind, List.lookup, this]

/-- The sum of R107 is the value of the register whose words it reads (00_scope.md R10). -/
theorem storedValue_words (b : Bank) : storedValue (b.map BitVec.toNat) = val b := by
  induction b with
  | nil => rfl
  | cons w ws ih => simp [storedValue, val, ih]

/-- A STORE that has read every word of a register gives the register's value. -/
theorem storeResult_of_words {h : HostRun} {b : Bank}
    (hw : ∀ i (hi : i < b.length), h.valueOf (.storeWord i) = some b[i].toNat) :
    h.storeResult b.length = some (val b) := by
  have hmap : (List.range b.length).map (fun i => h.valueOf (.storeWord i)) = b.map fun w => some w.toNat := by
    apply List.ext_getElem (by simp)
    intro i h1 h2
    simp only [List.length_map] at h2
    simp [hw i h2]
  simp only [HostRun.storeResult, hmap]
  simp [List.map_map, Function.comp_def, ← storedValue_words b]

/-! ### Moves -/

/-- A host move with a line to run is one step of the machine, with that line's access as its oldest turn. -/
theorem hostMove_of_line {h : HostRun} {p : Pseudo} {rest : List Pseudo} {l : HostLine} {t : State}
    (hp : h.program = p :: rest) (hl : (expandPseudo h.machine.cfg.words p)[h.taken]? = some l)
    (ht : step (issue (lineAccess h.machine.cfg h.master l) h.machine) = .next t) :
    h.hostMove = .next (h.afterLine p l t) := by
  simp only [HostRun.hostMove, hp, hl, ht]

/-- Within a pass the host only takes in the answer. -/
theorem afterLine_more {h : HostRun} {p : Pseudo} (l : HostLine) (t : State)
    (hlt : h.taken + 1 < (expandPseudo h.machine.cfg.words p).length) :
    h.afterLine p l t =
      ({ h with machine := t, taken := h.taken + 1 } : HostRun).receive l (t.responses.head?.map Prod.snd) :=
  if_pos hlt

/-- After the last access of a pass the host takes in the answer and does what R107 says of the line. -/
theorem afterLine_last {h : HostRun} {p : Pseudo} (l : HostLine) (t : State)
    (hle : (expandPseudo h.machine.cfg.words p).length ≤ h.taken + 1) :
    h.afterLine p l t =
      (({ h with machine := t, taken := h.taken + 1 } : HostRun).receive l (t.responses.head?.map Prod.snd)).afterPass p :=
  if_neg (Nat.not_lt.2 hle)

/-- What a host's read does to the machine: it is answered with the register's value, and nothing else changes. -/
theorem step_issue_read {s : State} {master : Nat} {off : BitVec 32} {x : HostVar} {reg : Reg}
    (hp : s.cfg.wellFormed = true) (hr : accessReg s.cfg (lineAccess s.cfg master (.r off x)) = some reg) :
    step (issue (lineAccess s.cfg master (.r off x)) s) =
      .next { s with responses := (master, .data (readReg s.cfg.words s.blk reg)) :: s.responses } := by
  have hn : accessNext (issue (lineAccess s.cfg master (.r off x)) s) (lineAccess s.cfg master (.r off x)) s.turns := rfl
  rw [step_access (s := issue _ s) hp hn, serviceAccess_read (s := issue _ s) hn hr rfl]
  rfl

theorem machineMove_of_step {h : HostRun} {t : State} (ht : step h.machine = .next t) :
    h.machineMove = .next { h with machine := t } := by
  simp only [HostRun.machineMove, ht]

theorem moves_cons {m : Mover} {ms : List Mover} {h h' : HostRun} (hm : h.move m = .next h') :
    h.moves (m :: ms) = h'.moves ms := by
  simp only [HostRun.moves, hm]

/-- A run is a run of its first moves followed by a run of the rest. -/
theorem moves_append {ms ns : List Mover} {h h' : HostRun} (hm : h.moves ms = .next h') :
    h.moves (ms ++ ns) = h'.moves ns := by
  induction ms generalizing h with
  | nil => cases hm; rfl
  | cons m ms ih =>
    cases hmove : h.move m with
    | next h'' =>
      rw [moves_cons hmove] at hm
      rw [List.cons_append, moves_cons hmove]
      exact ih hm
    | fault f => simp [HostRun.moves, hmove] at hm
    | refused r => simp [HostRun.moves, hmove] at hm

end Sys2Proof.Machine
end

