-- ==== Sys2Proof/Laws/PerInstr.lean ====
section
/-! SUPPORT. Statements made once per instruction, one lemma per constructor. -/

namespace Sys2Proof.Laws.EncodedFields

/-- The word of an instruction carries its opcode in bits 3:0 and zeros in bits 31:4 (30_encoding.md R100, R101). -/
def Statement (i : Instr) : Prop :=
  opField (encode i) = opcodeOf i ∧ rsvdField (encode i) = 0 ∧ decodeOp (opcodeOf i) = some i

theorem add : Statement .add := by unfold Statement; decide

theorem sub : Statement .sub := by unfold Statement; decide

theorem mul : Statement .mul := by unfold Statement; decide

theorem divmod : Statement .divmod := by unfold Statement; decide

theorem modexp : Statement .modexp := by unfold Statement; decide

end Sys2Proof.Laws.EncodedFields
end

