-- ==== Sys2Proof/Tests/Slice0.lean ====
section
/-! SUPPORT. Tests, with their expected results from the spec (95_test_vectors.md and the worked examples of 43 and
44), and one witness for each obligation that has hypotheses: `witness_<Obligation>` shows that its hypotheses are met. -/

namespace Sys2Proof.Tests

open Sys2Proof Sys2Proof.Machine

/-! ### Small states -/

/-- A block of `words` words that rests with the given operands, 0x77 in RES0 and 0x55 in RES1. -/
def idleBlock (words a b c : Nat) : Block :=
  { Block.reset words (Hidden.reset words) with
    opa := ofVal words a, opb := ofVal words b, opc := ofVal words c
    res0 := ofVal words 0x77, res1 := ofVal words 0x55 }

/-- The same block after the command word `v` was accepted. -/
def busyBlock (words : Nat) (v : Word) (a b c : Nat) : Block := accept v (idleBlock words a b c)

/-- A machine with the given block and turns, at base 0x8000. -/
def machine (words : Nat) (blk : Block) (turns : List Turn) : State :=
  { cfg := { words := words, base := 0x8000 }, blk := blk, turns := turns, responses := [], draws := 0 }

/-- A 4-byte read of master 7 at an offset of base 0x8000. -/
def rd (off : Nat) : Access := { master := 7, kind := .read, addr := 0x8000 + off, width := 4 }

/-- A 4-byte write of master 7 at an offset of base 0x8000. -/
def wr (off : Nat) (v : Word) : Access := { master := 7, kind := .write v, addr := 0x8000 + off, width := 4 }

theorem machine_wellFormed (blk : Block) (turns : List Turn) : (machine 2 blk turns).cfg.wellFormed = true := by
  simp only [machine]
  decide

theorem idleBlock_widths (words a b c : Nat) (h : 1 ≤ words) : Block.Wf words (idleBlock words a b c) := by
  constructor <;> try simp [idleBlock, Block.reset]
  constructor <;> simp [Hidden.reset]
  omega

theorem machine_idle_inv (words a b c : Nat) (turns : List Turn) (h : 1 ≤ words) (h' : words ≤ 1024) :
    (machine words (idleBlock words a b c) turns).Inv := by
  refine ⟨?_, idleBlock_widths words a b c h, rfl, Or.inl rfl, fun hb => ?_⟩
  · simp [machine, Params.wellFormed, Params.wordsPositive, Params.wordsInBank, Params.baseAligned, h, h']
  · simp [machine, idleBlock, Block.reset] at hb

theorem machine_busy_inv (words a b c : Nat) (v : Word) (turns : List Turn) (h : 1 ≤ words) (h' : words ≤ 1024) :
    (machine words (busyBlock words v a b c) turns).Inv := by
  have hw := idleBlock_widths words a b c h
  refine ⟨?_, ⟨hw.opa, hw.opb, hw.opc, hw.res0, hw.res1, hw.hidden⟩, rfl, Or.inl rfl, fun _ => ⟨rfl, rfl⟩⟩
  simp [machine, Params.wellFormed, Params.wordsPositive, Params.wordsInBank, Params.baseAligned, h, h']

/-- What is seen after the first step from W words and the given operands with a command placed: RES0, RES1, STATUS. -/
def runCommand (words cmd a b c : Nat) : Option (Nat × Nat × Nat) :=
  match step ((machine words (idleBlock words a b c) []).withFetchWord 32 cmd) with
  | .next t => some (val t.blk.res0, val t.blk.res1, (statusWord t.blk).toNat)
  | _ => none

/-- What is looked at after one host access. -/
structure Seen where
  opa       : Nat
  status    : Nat
  irq       : Bool
  responses : List (Nat × Response)
deriving DecidableEq, Repr

/-- One host access on a block of 2 words. -/
def runAccess (blk : Block) (a : Access) : Option Seen :=
  match step (machine 2 blk [.access a]) with
  | .next t => some ⟨val t.blk.opa, (statusWord t.blk).toNat, irq t.blk, t.responses⟩
  | _ => none

/-! ### Well-formedness (R6, R7, R107): an ill-formed term for each check -/

theorem test_words_zero_refused : ({ words := 0, base := 0 } : Params).wordsPositive = false ∧
    ({ words := 0, base := 0 } : Params).wellFormed = false := by decide

theorem test_words_1025_refused : ({ words := 1025, base := 0 } : Params).wordsInBank = false ∧
    ({ words := 1025, base := 0 } : Params).wellFormed = false := by decide

theorem test_base_1_refused : ({ words := 2, base := 1 } : Params).baseAligned = false ∧
    ({ words := 2, base := 1 } : Params).wellFormed = false := by decide

theorem test_bounds_accepted : ({ words := 1, base := 0 } : Params).wellFormed = true ∧
    ({ words := 1024, base := 0x8000 } : Params).wellFormed = true := by decide

theorem test_load_value_of_65_bits_refused : pseudoWellFormed 2 (.load .opa (2 ^ 64)) = false ∧
    pseudoWellFormed 2 (.load .opa (2 ^ 64 - 1)) = true := by decide

theorem test_instructions_well_formed : ∀ i ∈ [Instr.add, .sub, .mul, .divmod, .modexp], i.wellFormed = true := by decide

/-! ### Decoding: OP in bits 3:0 and RSVD in bits 31:4 written out (R100, R101, vectors V-D-1 to V-D-7) -/

theorem test_decode_add : decode 0b00000000000000000000000000000001 = .ok .add := by decide

theorem test_decode_sub : decode 0b00000000000000000000000000000010 = .ok .sub := by decide

theorem test_decode_mul : decode 0b00000000000000000000000000000011 = .ok .mul := by decide

theorem test_decode_divmod : decode 0b00000000000000000000000000000100 = .ok .divmod := by decide

theorem test_decode_modexp : decode 0b00000000000000000000000000000101 = .ok .modexp := by decide

theorem test_decode_illegal : decode 0x00000000 = .error (.opcode 0x0) ∧ decode 0x00000006 = .error (.opcode 0x6) ∧
    decode 0x0000000F = .error (.opcode 0xF) ∧ decode 0x00000015 = .error (.reservedBits 1) ∧
    decode 0x80000001 = .error (.reservedBits 0x8000000) := by decide

theorem test_table_words : decodeTableWord 32 4 = some .divmod ∧ decodeTableWord 32 0x14 = none ∧
    decodeTableWord 64 0x100000001 = none := by decide

/-! ### The commands: at most two vectors each, one step each -/

/-- V-ADD-7: a carry out of word 0. -/
theorem test_add_carry : runCommand 2 1 0x123456789ABCDEF0 0x0FEDCBA987654321 0x99 =
    some (0x2222222222222211, 0x55, 0x2) := by decide +kernel

/-- V-ADD-3: the carry out of bit N-1 is lost. -/
theorem test_add_wraps : runCommand 2 1 0xFFFFFFFFFFFFFFFF 0x1 0x99 = some (0x0, 0x55, 0x2) := by decide +kernel

/-- V-SUB-3: a borrow from word 1 into word 0. -/
theorem test_sub_borrow : runCommand 2 2 0x100000000 0x1 0x99 = some (0xFFFFFFFF, 0x55, 0x2) := by decide +kernel

/-- V-SUB-5: a < b. -/
theorem test_sub_wraps : runCommand 2 2 0x5 0x1F 0x99 = some (0xFFFFFFFFFFFFFFE6, 0x55, 0x2) := by decide +kernel

/-- V-MUL-6: the true product loses its word 2. -/
theorem test_mul_truncates : runCommand 2 3 0x100000001 0x100000001 0x99 = some (0x200000001, 0x55, 0x2) := by
  decide +kernel

/-- V-MUL-9, W = 3. -/
theorem test_mul_three_words : runCommand 3 3 0xFFFFFFFFFFFFFFFF 0xFFFFFFFFFFFFFFFF 0x99 =
    some (0xFFFFFFFE0000000000000001, 0x55, 0x2) := by decide +kernel

/-- V-DIV-6: the first trial difference has its top bit set and is rejected. -/
theorem test_divmod_top_bit : runCommand 2 4 0x8000000000000000 0x7FFFFFFFFFFFFFFF 0x99 = some (0x1, 0x1, 0x2) := by
  decide +kernel

/-- V-DIV-14: division by zero leaves the results. -/
theorem test_divmod_by_zero : runCommand 2 4 0x1234 0x0 0x99 = some (0x77, 0x55, 0x22) := by decide +kernel

/-- V-MX-18: 64 iterations with truncated products. -/
theorem test_modexp_truncates : runCommand 2 5 0x3 0xFFFFFFFFFFFFFFFF 0xFFFFFFFFFFFFFFFF =
    some (0xAAAAAAAAAAAAAAAB, 0x55, 0x2) := by decide +kernel

/-- V-MX-4: exponent 0 with modulus 0 is no error. -/
theorem test_modexp_zero_exponent : runCommand 2 5 0x7 0x0 0x0 = some (0x1, 0x55, 0x2) := by decide +kernel

/-- V-D-8: an illegal word is reported before the zero divisor. -/
theorem test_illegal_before_zero_divisor : runCommand 2 0x14 0x1234 0x0 0x0 = some (0x77, 0x55, 0x12) := by decide +kernel

/-- The table of R238: bd, c, e, rem and quo at the start of each iteration of 0x64 / 0xA. -/
theorem test_division_trace :
    ((divTrace 64 (divStart (Hidden.reset 2).div (ofVal 2 0x64) (ofVal 2 0xA))).map
      fun d => [d.bd, val d.c, val d.e, val d.rem, val d.quo]) =
    [[3, 0x50, 0x8, 0x64, 0x0], [2, 0x28, 0x4, 0x14, 0x8], [1, 0x14, 0x2, 0x14, 0x8], [0, 0xA, 0x1, 0x0, 0xA]] := by
  decide +kernel

/-- The table of R267: ex, acc and bs before each iteration of 4^13 mod 497. -/
theorem test_modexp_trace :
    ((expTrace (Hidden.reset 2).div 64 (expStart (ofVal 2 4) (ofVal 2 13) (ofVal 2 497))).map
      fun g => [val g.ex, val g.acc, val g.bs]) =
    [[13, 1, 4], [6, 4, 16], [3, 4, 256], [1, 30, 429]] := by decide +kernel

/-! ### The host interface, one access each (R72 to R77, R141, R145; vectors of section 2.8) -/

/-- R141: a CMD write to an idle block; STATUS then reads BUSY. -/
theorem test_command_accepted : runAccess (idleBlock 2 5 6 7) (wr 0x0 1) = some ⟨5, 0x1, false, [(7, .ack)]⟩ := by
  decide +kernel

/-- R145: an operand write to a busy block is dropped and sets OVR. -/
theorem test_operand_write_dropped : runAccess (busyBlock 2 1 5 6 7) (wr 0x1000 0x9999) =
    some ⟨5, 0x5, false, [(7, .ack)]⟩ := by decide +kernel

/-- R74: word 1 of OPA. -/
theorem test_operand_word_written : runAccess (idleBlock 2 5 6 7) (wr 0x1004 2) =
    some ⟨0x200000005, 0x0, false, [(7, .ack)]⟩ := by decide +kernel

/-- R77: the first offset past RES0 with W = 2. -/
theorem test_bus_error : runAccess (idleBlock 2 5 6 7) (rd 0x4008) =
    some ⟨5, 0x0, false, [(7, .busError 0xC008)]⟩ := by decide +kernel

/-- R36, R39: acknowledging a completion lowers the interrupt. -/
theorem test_clear_done : runAccess { idleBlock 2 5 6 7 with done := true, doneIE := true } (wr 0x4 0x2) =
    some ⟨5, 0x0, false, [(7, .ack)]⟩ := by decide +kernel

/-- R37: CONFIG reads W. -/
theorem test_config_reads_words : runAccess (idleBlock 2 5 6 7) (rd 0x8) =
    some ⟨5, 0x0, false, [(7, .data 2)]⟩ := by decide +kernel

/-- R107: a poll that reads BUSY = 1 leaves the host in its WAIT, and one that reads BUSY = 0 ends it. -/
theorem test_wait_polls :
    let host := fun blk => ({ machine := machine 2 blk [], master := 7, program := [.wait], taken := 0, bound := [] } : HostRun)
    (match (host (busyBlock 2 1 5 6 7)).hostMove with | .next h => some (h.program, h.valueOf .waitStatus) | _ => none) =
      some ([.wait], some 1) ∧
    (match (host (idleBlock 2 5 6 7)).hostMove with | .next h => some (h.program, h.valueOf .waitStatus) | _ => none) =
      some ([], some 0) := by decide +kernel

/-! ### Witnesses: encoding -/

/-- Both ends of the reserved opcodes. -/
theorem witness_OpcodeMapDecodes : 0x6 ≤ (0x6 : BitVec 4).toNat ∧ 0x6 ≤ (0xF : BitVec 4).toNat ∧
    ¬0x6 ≤ (0x5 : BitVec 4).toNat := by decide

theorem witness_DecodeAndEncodeAgree : Instr.wellFormed .modexp = true ∧ decode 0x00000005 = .ok .modexp := by decide

/-! ### Witnesses: the host interface -/

/-- The last word of each bank with the widest registers, and both sides of 0x6000. -/
theorem witness_RegisterMapExactly : (1024 : Nat) ≤ 1024 ∧ mapOffset 1024 0x1FFC = some (.opa 1023) ∧
    mapOffset 1024 0x2000 = some (.opb 0) ∧ mapOffset 1024 0x3FFC = some (.opc 1023) ∧
    mapOffset 1024 0x4000 = some (.res0 0) ∧ mapOffset 1024 0x5FFC = some (.res1 1023) ∧
    0x6000 ≤ 0x6000 ∧ mapOffset 1024 0x6000 = none ∧ mapOffset 1 0x1004 = none ∧ mapOffset 1024 0x0010 = none := by decide

theorem witness_BusErrorExactlyOnRejectedAccess :
    let s := fun a => machine 2 (idleBlock 2 5 6 7) [.access a]
    (s (rd 0x4008)).cfg.wellFormed = true ∧ accessNext (s (rd 0x4008)) (rd 0x4008) [] ∧
    (rd 0x4008).addr = (s (rd 0x4008)).cfg.base + 0x4008 ∧
    ({ rd 0x4 with width := 2 } : Access).width ≠ 4 ∧ (0x1002 : Nat) % 4 ≠ 0 ∧
    (∀ reg, regExists 2 reg = true → offsetOf reg ≠ 0x4008) ∧
    (regExists 2 (.res0 1) = true ∧ offsetOf (.res0 1) = 0x4004) := by
  refine ⟨by decide, rfl, rfl, by decide, by decide, fun reg h => ?_, by decide⟩
  cases reg <;> simp [regExists, offsetOf] at * <;> omega

/-- A read of every kind of register, each bank at its last word. -/
theorem witness_ReadAnswersCurrentValue :
    ∀ reg ∈ [Reg.cmd, .status, .config, .irqen, .opa 1, .opb 1, .opc 1, .res0 1, .res1 1],
      let s := machine 2 (idleBlock 2 5 6 7) [.access (rd (offsetOf reg))]
      s.Inv ∧ accessNext s (rd (offsetOf reg)) [] ∧ (rd (offsetOf reg)).kind = .read ∧ (rd (offsetOf reg)).width = 4 ∧
      regExists s.cfg.words reg = true ∧ (rd (offsetOf reg)).addr = s.cfg.base + offsetOf reg := by
  intro reg hr
  refine ⟨machine_idle_inv 2 5 6 7 _ (by decide) (by decide), rfl, rfl, rfl, ?_, rfl⟩
  simp only [machine]
  revert reg
  decide

/-- A write to the last word of each operand register. -/
theorem witness_OperandWriteWhileIdle :
    ∀ off ∈ [0x1004, 0x2004, 0x3004],
      let s := machine 2 (idleBlock 2 5 6 7) [.access (wr off 9)]
      s.Inv ∧ accessNext s (wr off 9) [] ∧ (wr off 9).kind = .write 9 ∧ (wr off 9).width = 4 ∧ 1 < s.cfg.words ∧
      s.blk.seq = .idle ∧
      ((wr off 9).addr = s.cfg.base + 0x1000 + 4 * 1 ∨ (wr off 9).addr = s.cfg.base + 0x2000 + 4 * 1 ∨
        (wr off 9).addr = s.cfg.base + 0x3000 + 4 * 1) := by
  intro off ho
  refine ⟨machine_idle_inv 2 5 6 7 _ (by decide) (by decide), rfl, rfl, rfl, Nat.one_lt_two, rfl, ?_⟩
  simp only [machine, wr]
  simp at ho
  omega

/-- The words in falling order, one of them twice. -/
theorem witness_LoadOperandInAnyOrder :
    let x := 0x200000001
    let s := machine 2 (idleBlock 2 5 6 7) ([1, 0, 1].map fun i => .access (wr (0x1000 + 4 * i) (word x i)))
    s.Inv ∧ s.blk.seq = .idle ∧ x < 2 ^ (32 * s.cfg.words) ∧ (∀ i, i ∈ [1, 0, 1] ↔ i < s.cfg.words) ∧
    s.turns = [1, 0, 1].map (fun i =>
      Turn.access { master := 7, kind := .write (word x i), addr := s.cfg.base + 0x1000 + 4 * i, width := 4 }) ++ [] := by
  refine ⟨machine_idle_inv 2 5 6 7 _ (by decide) (by decide), rfl, by decide, fun i => ?_, by decide⟩
  show i ∈ [1, 0, 1] ↔ i < 2
  simp only [List.mem_cons, List.not_mem_nil, or_false]
  omega

/-- A write to each kind of location, and a read, while the block is busy. -/
theorem witness_AccessesWhileBusy :
    let s := fun a => machine 2 (busyBlock 2 1 5 6 7) [.access a]
    (s (wr 0 3)).cfg.wellFormed = true ∧ accessNext (s (wr 0 3)) (wr 0 3) [] ∧ (s (wr 0 3)).blk.seq = .busy ∧
    accessReg (s (wr 0 3)).cfg (wr 0 3) = some .cmd ∧ isDroppable .cmd = true ∧
    accessReg (s (wr 0x3004 3)).cfg (wr 0x3004 3) = some (.opc 1) ∧ isDroppable (.opc 1) = true ∧
    accessReg (s (wr 0x4 6)).cfg (wr 0x4 6) = some .status ∧ accessReg (s (wr 0xC 1)).cfg (wr 0xC 1) = some .irqen ∧
    accessReg (s (wr 0x8 3)).cfg (wr 0x8 3) = some .config ∧
    accessReg (s (wr 0x4000 3)).cfg (wr 0x4000 3) = some (.res0 0) ∧
    accessReg (s (wr 0x5004 3)).cfg (wr 0x5004 3) = some (.res1 1) ∧
    accessReg (s (rd 0x5004)).cfg (rd 0x5004) = some (.res1 1) := by
  refine ⟨by decide, rfl, rfl, ?_⟩
  decide

theorem witness_ReadOnlyWritesIgnored :
    ∀ off ∈ [0x0008, 0x4000, 0x4004, 0x5000, 0x5004],
      let s := machine 2 (idleBlock 2 5 6 7) [.access (wr off 9)]
      s.cfg.wellFormed = true ∧ accessNext s (wr off 9) [] ∧ (wr off 9).kind = .write 9 ∧ (wr off 9).width = 4 ∧
      (wr off 9).addr = s.cfg.base + off ∧
      (off = 0x0008 ∨ ∃ i, i < s.cfg.words ∧ (off = 0x4000 + 4 * i ∨ off = 0x5000 + 4 * i)) := by
  intro off ho
  refine ⟨machine_wellFormed _ _, rfl, rfl, rfl, rfl, ?_⟩
  simp only [machine]
  simp only [List.mem_cons, List.not_mem_nil, or_false] at ho
  rcases ho with h | h | h | h | h
  · exact Or.inl h
  · exact Or.inr ⟨0, by omega, by omega⟩
  · exact Or.inr ⟨1, by omega, by omega⟩
  · exact Or.inr ⟨0, by omega, by omega⟩
  · exact Or.inr ⟨1, by omega, by omega⟩

/-- A write and a read of CONFIG and of IRQEN. -/
theorem witness_ConfigAndIrqenRegisters :
    ∀ a ∈ [wr 0x8 9, rd 0x8, wr 0xC 1, rd 0xC],
      let s := machine 2 (idleBlock 2 5 6 7) [.access a]
      s.cfg.wellFormed = true ∧ accessNext s a [] ∧ a.width = 4 ∧
      (a.addr = s.cfg.base + 0x0008 ∨ a.addr = s.cfg.base + 0x000C) ∧ (a.kind = .write 9 ∨ a.kind = .write 1 ∨ a.kind = .read) := by
  intro a ha
  refine ⟨machine_wellFormed _ _, rfl, ?_⟩
  simp only [machine]
  revert a
  decide

theorem witness_MastersAreNotToldApart :
    let s := machine 2 (idleBlock 2 5 6 7) [.access (rd 0x1000)]
    accessNext s (rd 0x1000) [] ∧ ∃ t, step s = .next t :=
  ⟨rfl, _, step_access rfl rfl⟩

theorem witness_PseudoInstructionsReachTheirRegisters :
    ({ words := 1024, base := 0x8000 } : Params).wellFormed = true := by decide

/-- A host at a WAIT, with the block busy and with the block idle. -/
theorem witness_WaitPollsUntilIdle :
    ∀ blk ∈ [busyBlock 2 1 5 6 7, idleBlock 2 5 6 7],
      let h : HostRun := { machine := machine 2 blk [], master := 7, program := [.wait, .clrDone], taken := 0, bound := [] }
      h.machine.cfg.wellFormed = true ∧ h.program = .wait :: [.clrDone] ∧ h.taken = 0 ∧
      (h.machine.blk.seq = .busy ∨ h.machine.blk.seq = .idle) := by
  intro blk _
  refine ⟨machine_wellFormed _ _, rfl, rfl, ?_⟩
  cases h : blk.seq <;> simp [machine, h]

theorem witness_WaitEndsAfterTheCompletion :
    let h : HostRun :=
      { machine := machine 2 (busyBlock 2 1 5 6 7) [], master := 7, program := [.wait, .clrDone], taken := 0, bound := [] }
    h.machine.cfg.wellFormed = true ∧ h.machine.blk.seq = .busy ∧ h.machine.turns = [] ∧
    h.program = .wait :: [.clrDone] ∧ h.taken = 0 :=
  ⟨machine_wellFormed _ _, rfl, rfl, rfl, rfl⟩

/-- Both result registers, with the widest and the narrowest block. -/
theorem witness_StoreBindsTheResult :
    ∀ (y : ResultReg) (words : Nat), words = 1 ∨ words = 1024 →
      let h : HostRun :=
        { machine := machine words (idleBlock words 5 6 7) [], master := 7, program := [.store y "X"], taken := 0, bound := [] }
      h.machine.Inv ∧ h.program = .store y "X" :: [] ∧ h.taken = 0 := by
  intro y words hw
  exact ⟨machine_idle_inv words 5 6 7 _ (by omega) (by omega), rfl, rfl⟩

/-! ### Witnesses: the command lifecycle -/

theorem witness_AcceptanceOfAnyWord :
    let s := machine 2 (idleBlock 2 5 6 7) [.access (wr 0 0xFFFFFFFF)]
    s.cfg.wellFormed = true ∧ accessNext s (wr 0 0xFFFFFFFF) [] ∧ (wr 0 0xFFFFFFFF).kind = .write 0xFFFFFFFF ∧
    (wr 0 0xFFFFFFFF).width = 4 ∧ (wr 0 0xFFFFFFFF).addr = s.cfg.base + 0x0000 ∧ s.blk.seq = .idle := by
  refine ⟨by decide, rfl, rfl, rfl, rfl, rfl⟩

/-- A completion on the sequencer's turn, and one after the end of the schedule. -/
theorem witness_CompletionRunsThePendingCommand :
    ∀ turns ∈ [[], [Turn.sequencer]],
      let s := machine 2 (busyBlock 2 4 5 6 7) turns
      s.cfg.wellFormed = true ∧ completes s ∧ decode s.blk.pend = .ok .divmod := by
  intro turns ht
  refine ⟨machine_wellFormed _ _, ⟨?_, rfl⟩, by simp only [machine, busyBlock]; decide⟩
  simp only [List.mem_cons, List.not_mem_nil, or_false] at ht
  exact ht.imp id fun h => ⟨[], h⟩

/-- A completion with each code: ADD, an illegal word, a division by zero, a zero modulus, and exponent 0. -/
theorem witness_CompletionReportsOneCode :
    (∀ v b c, let s := machine 2 (busyBlock 2 v 5 b c) []
      s.cfg.wellFormed = true ∧ completes s) ∧
    completionCode (busyBlock 2 1 5 0 0) = 0 ∧ completionCode (busyBlock 2 0 5 0 0) = 1 ∧
    completionCode (busyBlock 2 6 5 0 0) = 1 ∧ completionCode (busyBlock 2 0x14 5 0 0) = 1 ∧
    completionCode (busyBlock 2 4 5 0 0) = 2 ∧ completionCode (busyBlock 2 4 5 1 0) = 0 ∧
    completionCode (busyBlock 2 5 5 1 0) = 2 ∧ completionCode (busyBlock 2 5 5 0 0) = 0 := by
  refine ⟨fun v b c => ⟨machine_wellFormed _ _, Or.inl rfl, rfl⟩, ?_⟩
  decide +kernel

/-- A legal word and the three kinds of illegal word. -/
theorem witness_IllegalWordIsAcceptedAndReported :
    (∀ v : Word,
      let s := machine 2 (idleBlock 2 5 6 7) [.access (wr 0 v), .sequencer]
      s.cfg.wellFormed = true ∧ s.turns = .access (wr 0 v) :: .sequencer :: [] ∧ (wr 0 v).kind = .write v ∧
      accessReg s.cfg (wr 0 v) = some .cmd ∧ s.blk.seq = .idle) ∧
    ¬((5 : Nat) / 16 ≠ 0 ∨ 5 % 16 = 0 ∨ 6 ≤ 5 % 16) ∧ (0x15 : Nat) / 16 ≠ 0 ∧ (0 : Nat) % 16 = 0 ∧ 6 ≤ (0xF : Nat) % 16 := by
  refine ⟨fun v => ⟨machine_wellFormed _ _, rfl, rfl, by simp [accessReg, offsetIn, mapOffset, machine, wr], rfl⟩, ?_⟩
  decide

/-- A step of each kind: an acceptance, a completion, a reset, and a dropped write. -/
theorem witness_acceptance :
    let s := machine 2 (idleBlock 2 5 6 7) [.access (wr 0 1)]
    acceptsCommand s 1 ∧ s.blk.seq = .idle ∧ ∃ t, step s = .next t :=
  ⟨⟨⟨wr 0 1, [], rfl, rfl, by decide⟩, rfl⟩, rfl, _, step_access rfl rfl⟩

theorem witness_completion :
    let s := machine 2 (busyBlock 2 1 5 6 7) [.sequencer]
    completes s ∧ ¬resets s ∧ s.blk.seq = .busy ∧ (¬∃ v, acceptsCommand s v) ∧ ∃ t, step s = .next t := by
  have hc : completes (machine 2 (busyBlock 2 1 5 6 7) [.sequencer]) := ⟨Or.inr ⟨[], rfl⟩, rfl⟩
  refine ⟨hc, ?_, rfl, ?_, _, step_completes rfl hc⟩
  · rintro ⟨rest, h⟩
    simp [machine] at h
  · rintro ⟨v, -, h⟩
    simp [machine, busyBlock] at h

theorem witness_reset :
    let s := machine 2 (busyBlock 2 1 5 6 7) [.reset]
    resets s ∧ s.blk.seq = .busy ∧ ∃ t, step s = .next t :=
  ⟨⟨[], rfl⟩, rfl, _, step_reset rfl rfl⟩

theorem witness_dropped_write :
    let s := machine 2 (busyBlock 2 1 5 6 7) [.access (wr 0x1000 9)]
    dropsWrite s ∧ ∃ t, step s = .next t :=
  ⟨⟨.opa 0, 9, ⟨wr 0x1000 9, [], rfl, rfl, by decide⟩, rfl, rfl⟩, _, step_access rfl rfl⟩

/-- Both states of the sequencer. -/
theorem witness_SequencerTransitions :
    (∃ s v t, step s = .next t ∧ s.blk.seq = .idle ∧ acceptsCommand s v) ∧
    (∃ s t, step s = .next t ∧ s.blk.seq = .busy ∧ completes s) ∧
    ∃ s t, step s = .next t ∧ s.blk.seq = .busy ∧ resets s := by
  obtain ⟨a, b, t, h⟩ := witness_acceptance
  obtain ⟨c, -, d, -, u, h'⟩ := witness_completion
  obtain ⟨e, f, v, h''⟩ := witness_reset
  exact ⟨⟨_, _, t, h, b, a⟩, ⟨_, u, h', d, c⟩, ⟨_, v, h'', f, e⟩⟩

/-- A write of 1 to both STATUS bits with both set, and every event the statement names. -/
theorem witness_StatusFieldsAfterAnyStep :
    (let s := machine 2 { idleBlock 2 5 6 7 with done := true, ovr := true } [.access (wr 0x4 0x6)]
     writesReg s .status 0x6 ∧ (statusWord s.blk).getLsbD 1 = true ∧ (statusWord s.blk).getLsbD 2 = true ∧
     (∃ t, step s = .next t) ∧ (¬∃ v, acceptsCommand s v) ∧ ¬resets s ∧ ¬completes s) ∧
    (∃ s t, step s = .next t ∧ dropsWrite s) ∧ (∃ s t, step s = .next t ∧ completes s) ∧
    (∃ s v t, step s = .next t ∧ acceptsCommand s v) ∧ ∃ s t, step s = .next t ∧ resets s := by
  obtain ⟨a, -, t, h⟩ := witness_acceptance
  obtain ⟨c, -, -, -, u, h'⟩ := witness_completion
  obtain ⟨e, -, v, h''⟩ := witness_reset
  obtain ⟨f, w, h'''⟩ := witness_dropped_write
  refine ⟨⟨⟨wr 0x4 0x6, [], rfl, rfl, by decide⟩, by decide, by decide, ⟨_, step_access rfl rfl⟩, ?_, ?_, ?_⟩,
    ⟨_, w, h''', f⟩, ⟨_, u, h', c⟩, ⟨_, _, t, h, a⟩, ⟨_, v, h'', e⟩⟩
  · rintro ⟨v, ⟨a, rest, ht, -, hr⟩, -⟩
    simp only [accessNext, machine, List.cons.injEq, Turn.access.injEq] at ht
    obtain ⟨rfl, -⟩ := ht
    revert hr
    decide
  · rintro ⟨rest, h⟩
    simp [machine] at h
  · rintro ⟨-, h⟩
    simp [machine, idleBlock, Block.reset] at h

/-- An IRQEN write, a STATUS write of 1 to bit 1, a dropped write and a bus error; the others are above. -/
theorem witness_InterruptLevel :
    (let s := machine 2 { idleBlock 2 5 6 7 with done := true } [.access (wr 0xC 1)]
     writesReg s .irqen 1 ∧ ∃ t, step s = .next t) ∧
    (let s := machine 2 { idleBlock 2 5 6 7 with done := true, doneIE := true } [.access (wr 0x4 2)]
     writesReg s .status 2 ∧ (2 : Word).getLsbD 1 = true ∧ ∃ t, step s = .next t) ∧
    (let s := machine 2 (idleBlock 2 5 6 7) [.access (rd 0x4008)]
     busErrors s ∧ ∃ t, step s = .next t) ∧
    (∃ s t, step s = .next t ∧ dropsWrite s) ∧ (∃ s t, step s = .next t ∧ completes s) ∧
    (∃ s v t, step s = .next t ∧ acceptsCommand s v) ∧ ∃ s t, step s = .next t ∧ resets s := by
  obtain ⟨-, b, c, d, e⟩ := witness_StatusFieldsAfterAnyStep
  exact ⟨⟨⟨wr 0xC 1, [], rfl, rfl, by decide⟩, _, step_access rfl rfl⟩,
    ⟨⟨wr 0x4 2, [], rfl, rfl, by decide⟩, by decide, _, step_access rfl rfl⟩,
    ⟨⟨rd 0x4008, [], rfl, by decide⟩, _, step_access rfl rfl⟩, b, c, d, e⟩

/-- ADD of 5 and 6 changes RES0. -/
theorem witness_ResultsChangeOnlyByErrorFreeCompletion :
    ∃ s t, step s = .next t ∧ (t.blk.res0 ≠ s.blk.res0 ∨ t.blk.res1 ≠ s.blk.res1) := by
  have hc : completes (machine 2 (busyBlock 2 1 5 6 7) []) := ⟨Or.inl rfl, rfl⟩
  refine ⟨_, _, step_completes rfl hc, Or.inl ?_⟩
  have : addw (ofVal 2 5) (ofVal 2 6) ≠ ofVal 2 0x77 := by decide +kernel
  exact this

theorem witness_OperandsStableWhileBusy :
    (∃ s t, step s = .next t ∧ s.blk.seq = .busy ∧ ¬resets s) ∧ ∃ s v t, step s = .next t ∧ acceptsCommand s v := by
  obtain ⟨a, -, t, h⟩ := witness_acceptance
  obtain ⟨-, c, d, -, u, h'⟩ := witness_completion
  exact ⟨⟨_, u, h', d, c⟩, ⟨_, _, t, h, a⟩⟩

theorem witness_EveryAcceptedCommandEnds :
    let s := machine 2 (busyBlock 2 1 5 6 7) [.access (rd 0x4), .access (wr 0 3)]
    s.cfg.wellFormed = true ∧ s.blk.seq = .busy := by decide

/-- One step, for a legal and for an illegal word. -/
theorem witness_PolledResultsAreTheCommandsOwn :
    ∀ v ∈ [(4 : Word), 0],
      ∃ (k : Nat) (s t : State), s.cfg.wellFormed = true ∧ s.blk.seq = .busy ∧
        Host.Core.run Sys2Proof.core k s = .next t ∧
        (∀ j u, j < k → Host.Core.run Sys2Proof.core j s = .next u → ¬resets u ∧ ¬∃ v, acceptsCommand u v) ∧
        (statusWord t.blk).getLsbD 0 = false ∧ s.blk.pend = v := by
  intro v _
  have hc : completes (machine 2 (busyBlock 2 v 5 6 7) []) := ⟨Or.inl rfl, rfl⟩
  refine ⟨1, machine 2 (busyBlock 2 v 5 6 7) [], _, machine_wellFormed _ _, rfl,
    run_succ 0 (step_completes (machine_wellFormed _ _) hc), ?_, ?_, rfl⟩
  · intro j u hj hu
    obtain rfl : j = 0 := by omega
    cases hu
    constructor
    · rintro ⟨rest, h⟩
      simp [machine] at h
    · rintro ⟨w, -, h⟩
      simp [machine, busyBlock] at h
  · rw [(statusWord_fields _).1]
    simp only [isBusy]
    cases hr : pendingResult (machine 2 (busyBlock 2 v 5 6 7) []).blk with
    | ok x y => rw [(complete_ok x y _).seq]; rfl
    | error e => rw [(complete_error e _).seq]; rfl

theorem witness_LatencyOfReadsIsInvisible :
    let s := machine 2 (busyBlock 2 1 5 6 7) [.access (rd 0x4), .access (rd 0x4008), .sequencer]
    s.cfg.wellFormed = true ∧ (∀ a ∈ [rd 0x4, rd 0x4008], a.kind = .read) ∧
    s.turns = [rd 0x4, rd 0x4008].map Turn.access ++ .sequencer :: [] := by decide

theorem witness_BothOrdersOfWriteAndCompletion :
    let s := machine 2 (busyBlock 2 4 5 6 7) []
    s.Inv ∧ s.blk.seq = .busy ∧ (wr 0x1004 9).kind = .write 9 ∧ accessReg s.cfg (wr 0x1004 9) = some (.opa 1) :=
  ⟨machine_busy_inv 2 5 6 7 4 _ (by decide) (by decide), rfl, rfl, by decide⟩

/-! ### Witnesses: reset and the whole machine -/

theorem witness_ResetStep :
    let s := machine 2 (busyBlock 2 1 5 6 7) [.reset, .sequencer]
    s.cfg.wellFormed = true ∧ s.turns = .reset :: [.sequencer] := by decide

theorem witness_ResetKeepsTheHosts :
    let s := machine 2 (busyBlock 2 1 5 6 7) [.reset, .sequencer]
    s.turns = .reset :: [.sequencer] ∧ ∃ t, step s = .next t :=
  ⟨rfl, _, step_reset rfl rfl⟩

theorem witness_ResetStateIsLegal : ({ words := 1024, base := 0x8000 } : Params).wellFormed = true ∧
    ({ words := 1, base := 0 } : Params).wellFormed = true := by decide

theorem witness_EveryStepKeepsTheInvariant : ∃ s t : State, s.Inv ∧ s.blk.seq = .busy ∧ step s = .next t :=
  ⟨machine 2 (busyBlock 2 5 5 6 7) [], _, machine_busy_inv 2 5 6 7 5 _ (by decide) (by decide), rfl,
    step_completes rfl ⟨Or.inl rfl, rfl⟩⟩

theorem witness_LegalStatesNeverStop : (machine 1024 (busyBlock 1024 5 5 6 7) [.reset]).Inv :=
  machine_busy_inv 1024 5 6 7 5 _ (by decide) (by decide)

/-- Both ends of W, outside and inside, and a BASE of each kind. -/
theorem witness_OnlyUnsupportedParametersAreRefused :
    let s := fun p => ({ State.reset with cfg := p } : State)
    (s { words := 0, base := 0 }).cfg.words = 0 ∧ 1024 < (s { words := 1025, base := 1 }).cfg.words ∧
    (1 ≤ (s { words := 1, base := 4 }).cfg.words ∧ (s { words := 1, base := 4 }).cfg.words ≤ 1024 ∧
      (s { words := 1, base := 4 }).cfg.base % 0x8000 ≠ 0) ∧
    (1 ≤ (s { words := 1024, base := 0x8000 }).cfg.words ∧ (s { words := 1024, base := 0x8000 }).cfg.words ≤ 1024 ∧
      (s { words := 1024, base := 0x8000 }).cfg.base % 0x8000 = 0) := by decide

/-! ### Witnesses: the commands -/

/-- The premise of AddCommand, SubCommand, MulCommand and of the corner cases: registers of W words, at both ends of W. -/
theorem witness_AddCommand : Block.Wf 2 (machine 2 (idleBlock 2 5 6 7) []).blk ∧
    Block.Wf 1024 (machine 1024 (idleBlock 1024 5 6 7) []).blk :=
  ⟨idleBlock_widths 2 5 6 7 (by decide), idleBlock_widths 1024 5 6 7 (by decide)⟩

theorem witness_SubCommand : Block.Wf 2 (machine 2 (idleBlock 2 5 6 7) []).blk := idleBlock_widths 2 5 6 7 (by decide)

theorem witness_MulCommand : Block.Wf 2 (machine 2 (idleBlock 2 5 6 7) []).blk := idleBlock_widths 2 5 6 7 (by decide)

theorem witness_DivmodCommand : val (idleBlock 2 5 0 7).opb = 0 ∧ val (idleBlock 2 5 1 7).opb ≠ 0 := by decide +kernel

theorem witness_DivmodGivesQuotientAndRemainder :
    let s := machine 2 (idleBlock 2 100 7 0) []
    Block.Wf s.cfg.words s.blk ∧ val s.blk.opb ≠ 0 :=
  ⟨idleBlock_widths 2 100 7 0 (by decide), by decide +kernel⟩

/-- Operands for each clause: by 0, a < b, a = b, by 1, 0 / b, and the two pairs of R237. -/
theorem witness_DivmodCornerCases :
    (∀ a b, Block.Wf (machine 2 (idleBlock 2 a b 0) []).cfg.words (machine 2 (idleBlock 2 a b 0) []).blk) ∧
    val (idleBlock 2 5 0 0).opb = 0 ∧ val (idleBlock 2 6 7 0).opa < val (idleBlock 2 6 7 0).opb ∧
    (idleBlock 2 7 7 0).opa = (idleBlock 2 7 7 0).opb ∧ val (idleBlock 2 7 1 0).opb = 1 ∧
    val (idleBlock 2 0 7 0).opa = 0 ∧ val (idleBlock 2 (2 ^ 64 - 1) (2 ^ 63 + 1) 0).opa = 2 ^ 64 - 1 ∧
    val (idleBlock 2 (2 ^ 64 - 1) (2 ^ 63 + 1) 0).opb = 2 ^ 63 + 1 ∧
    val (idleBlock 2 (2 ^ 63) (2 ^ 63 - 1) 0).opa = 2 ^ 63 ∧ val (idleBlock 2 (2 ^ 63) (2 ^ 63 - 1) 0).opb = 2 ^ 63 - 1 := by
  refine ⟨fun a b => idleBlock_widths 2 a b 0 (by decide), ?_⟩
  decide +kernel

theorem witness_ModexpCommand :
    (val (idleBlock 2 5 1 0).opc = 0 ∧ val (idleBlock 2 5 1 0).opb ≠ 0) ∧
    ¬(val (idleBlock 2 5 0 0).opc = 0 ∧ val (idleBlock 2 5 0 0).opb ≠ 0) ∧
    ¬(val (idleBlock 2 5 1 1).opc = 0 ∧ val (idleBlock 2 5 1 1).opb ≠ 0) := by decide +kernel

theorem witness_ModexpIteration :
    let g := expStart (ofVal 2 4) (ofVal 2 13) (ofVal 2 497)
    g.acc.length = 2 ∧ g.bs.length = 2 ∧ g.ex.length = 2 ∧ g.m.length = 2 ∧ val g.m ≠ 0 := by decide +kernel

/-- The largest modulus and base of the exact range, and exponent 0 with the narrowest register. -/
theorem witness_ModexpExactRange :
    ((ofVal 2 (2 ^ 32 - 1)).length = 2 ∧ (ofVal 2 13).length = 2 ∧ (ofVal 2 (2 ^ 32)).length = 2 ∧
      1 ≤ val (ofVal 2 13) ∧ 1 ≤ val (ofVal 2 (2 ^ 32)) ∧ val (ofVal 2 (2 ^ 32 - 1)) < 2 ^ (16 * 2) ∧
      val (ofVal 2 (2 ^ 32)) ≤ 2 ^ (16 * 2)) ∧
    ((ofVal 1 0).length = 1 ∧ 1 ≤ 1 ∧ val (ofVal 1 0) = 0) := by decide +kernel

/-- Operands for each clause: exponent 0, modulus 1, modulus 0, exponent 1, and base 0. -/
theorem witness_ModexpCornerCases :
    (∀ a b c, (machine 2 (idleBlock 2 a b c) []).Inv) ∧
    val (idleBlock 2 5 0 0).opb = 0 ∧ (1 ≤ val (idleBlock 2 5 1 1).opb ∧ val (idleBlock 2 5 1 1).opc = 1) ∧
    (1 ≤ val (idleBlock 2 5 1 0).opb ∧ val (idleBlock 2 5 1 0).opc = 0) ∧
    (val (idleBlock 2 5 1 7).opb = 1 ∧ val (idleBlock 2 5 1 7).opc ≠ 0) ∧
    (1 ≤ val (idleBlock 2 0 1 7).opb ∧ val (idleBlock 2 0 1 7).opa = 0 ∧ val (idleBlock 2 0 1 7).opc ≠ 0) := by
  refine ⟨fun a b c => machine_idle_inv 2 a b c [] (by decide) (by decide), ?_⟩
  decide +kernel

theorem witness_ModexpIterationCount :
    (ofVal 2 4).length = 2 ∧ (ofVal 2 (2 ^ 64 - 1)).length = 2 ∧ (ofVal 2 497).length = 2 := by decide

/-- Two different states that agree on the operands. -/
theorem witness_OutcomeDependsOnOperandsOnly :
    let s := machine 2 (idleBlock 2 5 6 7) []
    let s' := machine 2 (busyBlock 2 9 5 6 7) [.reset]
    s ≠ s' ∧ s.blk.opa = s'.blk.opa ∧ s.blk.opb = s'.blk.opb ∧ s.blk.opc = s'.blk.opc := by decide +kernel

/-- A register of each kind but STATUS and the results. -/
theorem witness_CommandsLeaveOtherRegisters :
    ∀ reg ∈ [Reg.cmd, .config, .irqen, .opa 0, .opb 1, .opc 1],
      reg ≠ .status ∧ (∀ k, reg ≠ .res0 k) ∧ ∀ k, reg ≠ .res1 k := by
  intro reg h
  simp only [List.mem_cons, List.not_mem_nil, or_false] at h
  rcases h with rfl | rfl | rfl | rfl | rfl | rfl <;> simp

/-! ### Witnesses: the datapath -/

theorem witness_ComparisonsAreNumeric :
    (ofVal 2 5).length = (ofVal 2 6).length ∧ ([1] : Bank).length = ([2] : Bank).length ∧
    (1 : Word).toNat < (2 : Word).toNat := by decide

theorem witness_BitLengthIsLeastBound : (1 : Word) ≠ 0 ∧ (0x80000000 : Word) ≠ 0 ∧ ∀ y ∈ ([0, 0] : Bank), y = 0 := by
  simp

/-- Both orders of the operands, and equal ones. -/
theorem witness_AddAndSubtractModulo :
    (ofVal 2 5).length = (ofVal 2 6).length ∧ val (ofVal 2 5) < val (ofVal 2 6) ∧ val (ofVal 2 6) ≤ val (ofVal 2 6) := by
  decide +kernel

theorem witness_MultiplyModulo : (ofVal 2 5).length = (ofVal 2 6).length := by decide

theorem witness_WordLevelLaws :
    (ofVal 3 5).length = (ofVal 3 6).length ∧ (ofVal 3 5).length = (ofVal 3 7).length := by decide

/-- Operands for each clause of R207. -/
theorem witness_MulCornerCases :
    (∀ a b, Block.Wf (machine 2 (idleBlock 2 a b 0) []).cfg.words (machine 2 (idleBlock 2 a b 0) []).blk) ∧
    val (idleBlock 2 0 7 0).opa = 0 ∧ val (idleBlock 2 7 1 0).opb = 1 ∧
    (val (idleBlock 2 (2 ^ 64 - 1) (2 ^ 64 - 1) 0).opa = 2 ^ (32 * 2) - 1 ∧
      val (idleBlock 2 (2 ^ 64 - 1) (2 ^ 64 - 1) 0).opb = 2 ^ (32 * 2) - 1) ∧
    (val (idleBlock 2 (2 ^ 32) (2 ^ 32) 0).opa = 2 ^ 32 ∧ val (idleBlock 2 (2 ^ 32) (2 ^ 32) 0).opb = 2 ^ 32) ∧
    (val (idleBlock 2 0xFFFFFFFF 0xFFFFFFFF 0).opa = 0xFFFFFFFF ∧
      val (idleBlock 2 0xFFFFFFFF 0xFFFFFFFF 0).opb = 0xFFFFFFFF) := by
  refine ⟨fun a b => idleBlock_widths 2 a b 0 (by decide), ?_⟩
  decide +kernel

/-- Operands for each clause of R201 and R204. -/
theorem witness_AddAndSubCornerCases :
    (∀ a b, Block.Wf (machine 2 (idleBlock 2 a b 0) []).cfg.words (machine 2 (idleBlock 2 a b 0) []).blk) ∧
    2 ^ (32 * 2) ≤ val (idleBlock 2 (2 ^ 64 - 1) 1 0).opa + val (idleBlock 2 (2 ^ 64 - 1) 1 0).opb ∧
    (val (idleBlock 2 0xFFFFFFFF 1 0).opa = 0xFFFFFFFF ∧ val (idleBlock 2 0xFFFFFFFF 1 0).opb = 1) ∧
    val (idleBlock 2 7 0 0).opb = 0 ∧ (idleBlock 2 7 7 0).opa = (idleBlock 2 7 7 0).opb ∧
    val (idleBlock 2 6 7 0).opa < val (idleBlock 2 6 7 0).opb ∧
    (val (idleBlock 2 0x100000000 1 0).opa = 0x100000000 ∧ val (idleBlock 2 0x100000000 1 0).opb = 1) ∧
    val (idleBlock 2 0 7 0).opa = 0 := by
  refine ⟨fun a b => idleBlock_widths 2 a b 0 (by decide), ?_⟩
  decide +kernel

/-- A quotient of 1 and the longest division, whose trace is not empty. -/
theorem witness_LongDivisionIsExact :
    (∀ a b, (ofVal 2 a).length = (ofVal 2 b).length) ∧ val (ofVal 2 1) ≠ 0 ∧ val (ofVal 2 1) ≤ val (ofVal 2 (2 ^ 64 - 1)) ∧
    (divTrace 64 (divStart (Hidden.reset 2).div (ofVal 2 (2 ^ 64 - 1)) (ofVal 2 1))).length = 64 ∧
    val (ofVal 2 7) ≤ val (ofVal 2 7) := by
  refine ⟨fun a b => by simp, ?_⟩
  decide +kernel

theorem witness_PartialRemainderTracking :
    (ofVal 2 100).length = (ofVal 2 7).length ∧ val (ofVal 2 7) ≠ 0 ∧ val (ofVal 2 7) ≤ val (ofVal 2 100) ∧
    divTrace 64 (divStart (Hidden.reset 2).div (ofVal 2 100) (ofVal 2 7)) ≠ [] := by decide +kernel

/-- Both sides of a < b. -/
theorem witness_DivisionIterationCount :
    (ofVal 2 6).length = (ofVal 2 7).length ∧ val (ofVal 2 7) ≠ 0 ∧ val (ofVal 2 6) < val (ofVal 2 7) ∧
    val (ofVal 2 7) ≤ val (ofVal 2 7) := by decide +kernel

end Sys2Proof.Tests
end

/-! Every supported state steps, one turn at a time, so a schedule is used up (00_scope.md R8), and only unsupported
parameters are refused (R6, R7, D2). -/

namespace Sys2Proof.Machine

/-! ### What a step keeps -/

@[simp] theorem serviceAccess_cfg (a : Access) (s : State) : (serviceAccess a s).cfg = s.cfg := by
  unfold serviceAccess
  split
  · rfl
  · split <;> rfl

@[simp] theorem serviceAccess_turns (a : Access) (s : State) : (serviceAccess a s).turns = s.turns := by
  unfold serviceAccess
  split
  · rfl
  · split <;> rfl

/-- A sequencer's turn either rests or completes. -/
theorem step_sequencer {s : State} (hp : s.cfg.wellFormed = true) (hn : sequencerNext s) :
    step s = .next (match s.blk.seq with
      | .idle => popTurn s
      | .busy => complete (pendingResult s.blk) (popTurn s)) := by
  cases hs : s.blk.seq with
  | idle => exact step_idle hp hn hs
  | busy => exact step_completes hp ⟨hn, hs⟩

/-- With supported parameters a step answers a next state, keeps the parameters (10_state.md R46) and takes one turn. -/
theorem exists_step_of_wellFormed {s : State} (hp : s.cfg.wellFormed = true) :
    ∃ t, step s = .next t ∧ t.cfg = s.cfg ∧ t.turns = s.turns.tail := by
  have hseq (hn : sequencerNext s) : ∃ t, step s = .next t ∧ t.cfg = s.cfg ∧ t.turns = s.turns.tail :=
    ⟨_, step_sequencer hp hn, by split <;> rfl, by split <;> rfl⟩
  match ht : s.turns with
  | [] => simpa [ht] using hseq (.inl ht)
  | .sequencer :: rest => simpa [ht] using hseq (.inr ⟨rest, ht⟩)
  | .access a :: rest => exact ⟨_, step_access hp ht, by simp, by simp [ht]⟩
  | .reset :: rest => exact ⟨_, step_reset hp ht, by simp, by simp [ht]⟩

/-! ### What is refused -/

theorem step_refused {s : State} {r : Refusal} (h : checkParams s.cfg = some r) : step s = .refused r := by
  unfold step runTurn
  rw [h]

theorem checkParams_unsupportedWidth {p : Params} (h : p.words = 0 ∨ 1024 < p.words) :
    checkParams p = some (.unsupportedWidth p.words) := by
  rcases h with h | h
  · simp [checkParams, Params.wordsPositive, h]
  · simp [checkParams, Params.wordsInBank, h.not_ge]

theorem checkParams_misalignedBase {p : Params} (h1 : 1 ≤ p.words) (h2 : p.words ≤ 1024) (hb : p.base % 0x8000 ≠ 0) :
    checkParams p = some (.misalignedBase p.base) := by
  simp [checkParams, Params.wordsPositive, Params.wordsInBank, Params.baseAligned, h1, h2, hb]

theorem wellFormed_of_bounds {p : Params} (h1 : 1 ≤ p.words) (h2 : p.words ≤ 1024) (hb : p.base % 0x8000 = 0) :
    p.wellFormed = true := by
  simp [Params.wellFormed, Params.wordsPositive, Params.wordsInBank, Params.baseAligned, h1, h2, hb]

/-- Settles O32: the parameter check has one refusal per bad parameter, and past it every turn has a next state. -/
theorem onlyUnsupportedParametersAreRefused : Obligations.OnlyUnsupportedParametersAreRefused := by
  intro s
  refine ⟨fun hw => step_refused (checkParams_unsupportedWidth hw),
    fun h1 h2 hb => step_refused (checkParams_misalignedBase h1 h2 hb), fun h1 h2 hb => ?_⟩
  obtain ⟨t, ht, -⟩ := exists_step_of_wellFormed (wellFormed_of_bounds h1 h2 hb)
  exact ⟨t, ht⟩

/-! ### A busy block ends -/

/-- Settles O23, by induction on the schedule: each turn is taken off it, and past its end the sequencer completes. -/
theorem everyAcceptedCommandEnds : Obligations.EveryAcceptedCommandEnds := by
  intro s hp hb
  induction hts : s.turns generalizing s with
  | nil =>
    have hstep := step_completes hp ⟨.inl hts, hb⟩
    exact ⟨1, _, by simp, run_succ 0 hstep, by simp⟩
  | cons turn rest ih =>
    obtain ⟨t, hstep, hcfg, hturns⟩ := exists_step_of_wellFormed hp
    cases hs : t.blk.seq with
    | idle => exact ⟨1, t, by simp, run_succ 0 hstep, hs⟩
    | busy =>
      obtain ⟨k, u, hk, hrun, hu⟩ := ih t (hcfg ▸ hp) hs (by simp [hturns, hts])
      exact ⟨k + 1, u, by simpa using hk, (run_succ k hstep).trans hrun, hu⟩

/-! ### Reads before the completion -/

/-- A read, a rejected one included, changes only the schedule and the answers (20_memory.md R75, R77). -/
theorem step_read {s : State} {a : Access} {rest : List Turn} (hp : s.cfg.wellFormed = true)
    (hn : accessNext s a rest) (hk : a.kind = .read) :
    ∃ r, step s = .next (afterAccess s a rest r s.blk) := by
  rw [step_access hp hn]
  cases hr : accessReg s.cfg a with
  | none => exact ⟨_, by rw [serviceAccess_error hn hr]⟩
  | some reg => exact ⟨_, by rw [serviceAccess_read hn hr hk]⟩

/-- A run of reads leaves everything but the schedule and the answers. -/
theorem run_reads {reads : List Access} (hk : ∀ a ∈ reads, a.kind = .read) (k : Nat) {s : State} {rest : List Turn}
    (hp : s.cfg.wellFormed = true) (ht : s.turns = reads.map Turn.access ++ rest) :
    ∃ rs, Host.Core.run Sys2Proof.core (reads.length + k) s =
      Host.Core.run Sys2Proof.core k { s with turns := rest, responses := rs } := by
  induction reads generalizing s with
  | nil => exact ⟨s.responses, by rw [← show s.turns = rest from ht]; simp⟩
  | cons a reads ih =>
    obtain ⟨hka, hks⟩ := List.forall_mem_cons.1 hk
    obtain ⟨r, hstep⟩ := step_read hp ht hka
    obtain ⟨rs, hrun⟩ := ih hks (s := afterAccess s a (reads.map Turn.access ++ rest) r s.blk) hp rfl
    refine ⟨rs, ?_⟩
    rw [List.length_cons, Nat.add_right_comm]
    exact (run_succ _ hstep).trans hrun

/-- No sequencer's turn looks at the answers given so far. -/
theorem step_sequencer_responses {s : State} (rest : List Turn) (rs : List (Nat × Response))
    (hp : s.cfg.wellFormed = true) :
    ∃ t u, step { s with turns := .sequencer :: rest, responses := rs } = .next t ∧
      step { s with turns := .sequencer :: rest } = .next u ∧ t.blk = u.blk ∧ t.turns = u.turns := by
  refine ⟨_, _, step_sequencer hp (.inr ⟨rest, rfl⟩), step_sequencer hp (.inr ⟨rest, rfl⟩), ?_⟩
  cases s.blk.seq <;> simp

/-- Settles O25: the reads change only the answers, which the sequencer's turn after them does not look at. -/
theorem latencyOfReadsIsInvisible : Obligations.LatencyOfReadsIsInvisible := by
  intro s reads rest hp hk ht
  obtain ⟨rs, hreads⟩ := run_reads hk 1 hp ht
  obtain ⟨t, u, hstep, hu, hsame⟩ := step_sequencer_responses rest rs hp
  exact ⟨t, u, hreads.trans (run_succ 0 hstep), hu, hsame⟩

end Sys2Proof.Machine

/-! The state of the block (10_state.md): what each kind of step does to each of its fields, and the invariant every step
keeps. -/

namespace Sys2Proof.Machine

/-! ### The events of a step exclude each other -/

/-- With an access as the oldest turn the step is a host write exactly when that access is one. -/
theorem accessNext.writesReg_iff {s : State} {a : Access} {rest : List Turn} (ht : accessNext s a rest) {reg : Reg}
    {v : Word} : writesReg s reg v ↔ a.kind = .write v ∧ accessReg s.cfg a = some reg := by
  constructor
  · rintro ⟨a', rest', ht', hk, hr⟩
    obtain ⟨rfl, -⟩ : a = a' ∧ rest = rest' := by simpa using Eq.trans (Eq.symm ht) ht'
    exact ⟨hk, hr⟩
  · rintro ⟨hk, hr⟩
    exact ⟨a, rest, ht, hk, hr⟩

theorem accessNext.not_completes {s : State} {a : Access} {rest : List Turn} (ht : accessNext s a rest) :
    ¬completes s := by
  have ht' : s.turns = _ := ht
  simp [completes, sequencerNext, ht']

theorem accessNext.not_resets {s : State} {a : Access} {rest : List Turn} (ht : accessNext s a rest) : ¬resets s := by
  have ht' : s.turns = _ := ht
  simp [resets, ht']

theorem sequencerNext.not_resets {s : State} (hn : sequencerNext s) : ¬resets s := by
  rcases hn with h | ⟨rest, h⟩ <;> simp [resets, h]

theorem writesReg.not_completes {s : State} {reg : Reg} {v : Word} (hw : writesReg s reg v) : ¬completes s := by
  obtain ⟨a, rest, ht, -, -⟩ := hw
  exact ht.not_completes

theorem writesReg.not_resets {s : State} {reg : Reg} {v : Word} (hw : writesReg s reg v) : ¬resets s := by
  obtain ⟨a, rest, ht, -, -⟩ := hw
  exact ht.not_resets

theorem sequencerNext.not_writesReg {s : State} (hn : sequencerNext s) (reg : Reg) (v : Word) : ¬writesReg s reg v := by
  rintro ⟨a, rest, ht, -, -⟩
  have ht' : s.turns = _ := ht
  simp [sequencerNext, ht'] at hn

theorem completes.not_resets {s : State} (hc : completes s) : ¬resets s := hc.1.not_resets

/-- A step is one host write at most. -/
theorem writesReg.writesReg_iff {s : State} {reg reg' : Reg} {v v' : Word} (hw : writesReg s reg v) :
    writesReg s reg' v' ↔ reg = reg' ∧ v = v' := by
  obtain ⟨a, rest, ht, hk, hr⟩ := hw
  simp [ht.writesReg_iff, hk, hr, and_comm]

/-- A host write is an acceptance exactly when it goes to CMD of an idle block (40_sequencer.md R141). -/
theorem writesReg.accepts_iff {s : State} {reg : Reg} {v : Word} (hw : writesReg s reg v) :
    (∃ v', acceptsCommand s v') ↔ reg = .cmd ∧ s.blk.seq = .idle := by
  simp [acceptsCommand, hw.writesReg_iff]

/-- A host write is dropped exactly when R145 lists its register and the block is busy. -/
theorem writesReg.dropsWrite_iff {s : State} {reg : Reg} {v : Word} (hw : writesReg s reg v) :
    dropsWrite s ↔ isDroppable reg = true ∧ s.blk.seq = .busy := by
  simp [dropsWrite, hw.writesReg_iff]

theorem not_accepts_of_not_writesReg {s : State} (hn : ∀ reg v, ¬writesReg s reg v) : ¬∃ v, acceptsCommand s v := by
  rintro ⟨v, hw, -⟩
  exact hn _ _ hw

theorem not_dropsWrite_of_not_writesReg {s : State} (hn : ∀ reg v, ¬writesReg s reg v) : ¬dropsWrite s := by
  rintro ⟨reg, v, hw, -⟩
  exact hn _ _ hw

theorem resets.not_writesReg {s : State} (hr : resets s) (reg : Reg) (v : Word) : ¬writesReg s reg v :=
  fun hw => hw.not_resets hr

theorem resets.not_completes {s : State} (hr : resets s) : ¬completes s := fun hc => hc.not_resets hr

/-! ### What each event does to the block -/

/-- The block after a step, by the event the step is: a step that is none of a host write, a completion and a reset leaves
the block as it was (`blockStep_of_step`). -/
inductive BlockStep (s : State) : Block → Prop where
  | quiet (hn : ∀ reg v, ¬writesReg s reg v) (hc : ¬completes s) (hr : ¬resets s) : BlockStep s s.blk
  | write (reg : Reg) (v : Word) (hw : writesReg s reg v) : BlockStep s (writeReg v s.blk reg)
  | completion (hc : completes s) :
      BlockStep s { commit (pendingResult s.blk) s.blk with hidden := freeHidden s.cfg.words s.draws }
  | reset (hr : resets s) : BlockStep s (Block.reset s.cfg.words (freeHidden s.cfg.words s.draws))

theorem blockStep_of_step {s t : State} (h : step s = .next t) : BlockStep s t.blk := by
  obtain ⟨-, ⟨a, rest, ht, rfl⟩ | ⟨hn, hi, rfl⟩ | ⟨hc, rfl⟩ | ⟨hr, rfl⟩⟩ := step_cases h
  · cases hr : accessReg s.cfg a with
    | none =>
      rw [serviceAccess_error ht hr]
      exact .quiet (by simp [ht.writesReg_iff, hr]) ht.not_completes ht.not_resets
    | some reg =>
      cases hk : a.kind with
      | read =>
        rw [serviceAccess_read ht hr hk]
        exact .quiet (by simp [ht.writesReg_iff, hk]) ht.not_completes ht.not_resets
      | write v =>
        rw [serviceAccess_write ht hr hk]
        exact .write reg v (ht.writesReg_iff.2 ⟨hk, hr⟩)
  · exact .quiet hn.not_writesReg (by simp [completes, hi]) hn.not_resets
  · exact .completion hc
  · exact .reset hr

/-! ### What a host write does to each field -/

@[simp] theorem writeReg_res0 (v : Word) (b : Block) (reg : Reg) : (writeReg v b reg).res0 = b.res0 := by
  rcases writeReg_cases v b reg with e | e | e | e | e | ⟨i, e⟩ | ⟨i, e⟩ | ⟨i, e⟩ <;> simp [e]

@[simp] theorem writeReg_res1 (v : Word) (b : Block) (reg : Reg) : (writeReg v b reg).res1 = b.res1 := by
  rcases writeReg_cases v b reg with e | e | e | e | e | ⟨i, e⟩ | ⟨i, e⟩ | ⟨i, e⟩ <;> simp [e]

theorem writeReg_seq (v : Word) (b : Block) (reg : Reg) :
    (writeReg v b reg).seq = .busy ↔ b.seq = .busy ∨ reg = .cmd := by
  cases reg with
  | cmd | opa | opb | opc => cases hs : b.seq <;> simp [writeReg, isBusy, hs]
  | status | config | irqen | res0 | res1 => simp [writeReg]

theorem writeReg_done (v : Word) (b : Block) (reg : Reg) :
    (writeReg v b reg).done = true ↔
      b.done = true ∧ ¬(reg = .cmd ∧ b.seq = .idle) ∧ (reg = .status → v.getLsbD 1 = false) := by
  cases reg with
  | cmd | opa | opb | opc => cases hs : b.seq <;> simp [writeReg, isBusy, hs]
  | status | config | irqen | res0 | res1 => simp [writeReg]

theorem writeReg_ovr (v : Word) (b : Block) (reg : Reg) :
    (writeReg v b reg).ovr = true ↔
      (isDroppable reg = true ∧ b.seq = .busy) ∨ (b.ovr = true ∧ (reg = .status → v.getLsbD 2 = false)) := by
  cases reg with
  | cmd | opa | opb | opc => cases hs : b.seq <;> simp [writeReg, isBusy, isDroppable, hs]
  | status | config | irqen | res0 | res1 => simp [writeReg, isDroppable]

theorem writeReg_err (v : Word) (b : Block) (reg : Reg) :
    (writeReg v b reg).err = if reg = .cmd ∧ b.seq = .idle then 0 else b.err := by
  cases reg with
  | cmd | opa | opb | opc => cases hs : b.seq <;> simp [writeReg, isBusy, hs]
  | status | config | irqen | res0 | res1 => simp [writeReg]

theorem writeReg_dropped {v : Word} {b : Block} {reg : Reg} (hd : isDroppable reg = true) (hb : b.seq = .busy) :
    writeReg v b reg = dropWrite b := by
  cases reg with
  | cmd | opa | opb | opc => simp [writeReg, isBusy_of_busy hb]
  | status | config | irqen | res0 | res1 => simp [isDroppable] at hd

theorem writeReg_accepted {v : Word} {b : Block} (hi : b.seq = .idle) : writeReg v b .cmd = accept v b := by
  simp [writeReg, isBusy_of_idle hi]

/-- PEND and CMD_LAST are written together (10_state.md R41). -/
theorem writeReg_pend {b : Block} (v : Word) (reg : Reg) (h : b.pend = b.cmdLast) :
    (writeReg v b reg).pend = (writeReg v b reg).cmdLast := by
  rcases writeReg_cases v b reg with e | e | e | e | e | ⟨i, e⟩ | ⟨i, e⟩ | ⟨i, e⟩ <;> simp [e, h]

/-! ### The block after a named event -/

section

variable {s : State} {b : Block}

theorem BlockStep.of_writesReg {reg : Reg} {v : Word} (hb : BlockStep s b) (hw : writesReg s reg v) :
    b = writeReg v s.blk reg := by
  cases hb with
  | quiet hn => exact absurd hw (hn reg v)
  | write reg' v' hw' =>
    obtain ⟨rfl, rfl⟩ := hw'.writesReg_iff.1 hw
    rfl
  | completion hc => exact absurd hc hw.not_completes
  | reset hr => exact absurd hr hw.not_resets

theorem BlockStep.of_acceptsCommand {v : Word} (hb : BlockStep s b) (ha : acceptsCommand s v) : b = accept v s.blk :=
  (hb.of_writesReg ha.1).trans (writeReg_accepted ha.2)

theorem BlockStep.of_dropsWrite (hb : BlockStep s b) (hd : dropsWrite s) : b = dropWrite s.blk := by
  obtain ⟨reg, v, hw, hreg, hs⟩ := hd
  exact (hb.of_writesReg hw).trans (writeReg_dropped hreg hs)

/-- A bus error changes nothing in the block (20_memory.md R77). -/
theorem BlockStep.of_busErrors (hb : BlockStep s b) (he : busErrors s) : b = s.blk := by
  obtain ⟨a, rest, ht, hreg⟩ := he
  cases hb with
  | quiet => rfl
  | write reg v hw => simp [ht.writesReg_iff, hreg] at hw
  | completion hc => exact absurd hc ht.not_completes
  | reset hr => exact absurd hr ht.not_resets

theorem BlockStep.of_completes (hb : BlockStep s b) (hc : completes s) :
    b = { commit (pendingResult s.blk) s.blk with hidden := freeHidden s.cfg.words s.draws } := by
  cases hb with
  | quiet _ hn => exact absurd hc hn
  | write reg v hw => exact absurd hc hw.not_completes
  | completion => rfl
  | reset hr => exact absurd hc hr.not_completes

theorem BlockStep.of_resets (hb : BlockStep s b) (hr : resets s) :
    b = Block.reset s.cfg.words (freeHidden s.cfg.words s.draws) := by
  cases hb with
  | quiet _ _ hn => exact absurd hr hn
  | write reg v hw => exact absurd hr hw.not_resets
  | completion hc => exact absurd hr hc.not_resets
  | reset => rfl

end

/-! ### The code a completion reports -/

/-- The error code of a result (60_exceptions.md R300). -/
def CmdResult.code : CmdResult → BitVec 4
  | .ok _ _ => 0
  | .error e => e.code

@[simp] theorem commit_err (r : CmdResult) (b : Block) : (commit r b).err = r.code := by cases r <;> rfl

theorem CmdResult.code_cases (r : CmdResult) : r.code = 0 ∨ r.code = 1 ∨ r.code = 2 := by
  cases r with
  | ok x y => exact .inl rfl
  | error e => cases e <;> simp [CmdResult.code, CmdError.code]

theorem decode_encode (i : Instr) : decode (encode i) = .ok i := by cases i <;> decide

/-- A word that does not decode is none of the five command words (30_encoding.md R101, R103). -/
theorem illegal_of_decode_error {v : Word} {e : Illegal} (h : decode v = .error e) : v.toNat = 0 ∨ 5 < v.toNat := by
  by_contra hn
  obtain ⟨i, hi⟩ : ∃ i, v.toNat = (encode i).toNat := by
    obtain h1 | h1 | h1 | h1 | h1 :
        v.toNat = 1 ∨ v.toNat = 2 ∨ v.toNat = 3 ∨ v.toNat = 4 ∨ v.toNat = 5 := by omega
    · exact ⟨.add, h1⟩
    · exact ⟨.sub, h1⟩
    · exact ⟨.mul, h1⟩
    · exact ⟨.divmod, h1⟩
    · exact ⟨.modexp, h1⟩
  rw [BitVec.eq_of_toNat_eq hi, decode_encode] at h
  cases h

theorem decodeOp_eq_some {op : BitVec 4} {i : Instr} (h : decodeOp op = some i) : op = opcodeOf i := by
  have all : ∀ op : BitVec 4, ∀ i ∈ decodeOp op, op = opcodeOf i := by decide
  exact all op i h

theorem rsvdField_append_opField (v : Word) : rsvdField v ++ opField v = v := by
  unfold rsvdField opField
  rw [BitVec.extractLsb'_append_extractLsb'_eq_extractLsb' (start₁ := 0) (len₁ := 4) (start₂ := 4) rfl]
  simp

/-- Every legal word is the word of its instruction (30_encoding.md R105). -/
theorem eq_encode_of_decode {v : Word} {i : Instr} (h : decode v = .ok i) : v = encode i := by
  unfold decode at h
  split at h
  next => cases h
  next hr =>
    split at h
    next j hj =>
      cases h
      rw [← rsvdField_append_opField v, decodeOp_eq_some hj, not_not.1 hr]
      rfl
    next => cases h

theorem encode_toNat (i : Instr) : (encode i).toNat = (opcodeOf i).toNat := by cases i <;> rfl

theorem pendingResult_of_ok {b : Block} {i : Instr} (h : decode b.pend = .ok i) : pendingResult b = resultOf i b := by
  simp [pendingResult, h]

theorem pendingResult_of_error {b : Block} {e : Illegal} (h : decode b.pend = .error e) :
    pendingResult b = .error .illegalCmd := by
  simp [pendingResult, h]

theorem divmodResult_code (old : DivRegs) (a b : Bank) : (divmodResult old a b).code = if val b = 0 then 2 else 0 := by
  unfold divmodResult
  split <;> rfl

theorem modexpResult_code (old : DivRegs) (base exp m : Bank) :
    (modexpResult old base exp m).code = if val m = 0 ∧ val exp ≠ 0 then 2 else 0 := by
  unfold modexpResult
  split <;> rfl

/-- The code of the pending word's result is the one R300 and R304 give. -/
theorem pendingResult_code (b : Block) : (pendingResult b).code = completionCode b := by
  cases hd : decode b.pend with
  | error e =>
    rw [pendingResult_of_error hd, completionCode, if_pos (illegal_of_decode_error hd)]
    rfl
  | ok i =>
    simp only [pendingResult_of_ok hd, completionCode, eq_encode_of_decode hd, encode_toNat]
    cases i with
    | add | sub | mul => rfl
    | divmod => simp [resultOf, divmodResult_code, opcodeOf]
    | modexp => simp [resultOf, modexpResult_code, opcodeOf]

/-! ### STATUS and SEQ after a step -/

theorem statusWord_busy (b : Block) : (statusWord b).getLsbD 0 = true ↔ b.seq = .busy := by
  rw [(statusWord_fields b).1]
  simp [isBusy]

/-- The reserved bits of STATUS read 0 (10_state.md R36). -/
theorem statusWord_reserved (b : Block) :
    (statusWord b).getLsbD 3 = false ∧ (statusWord b).extractLsb' 8 24 = 0 := by
  have key : ∀ (e : BitVec 4) (o d s : Bool),
      let w : Word := (0 : BitVec 24) ++ e ++ (0 : BitVec 1) ++ BitVec.ofBool o ++ BitVec.ofBool d ++ BitVec.ofBool s
      w.getLsbD 3 = false ∧ w.extractLsb' 8 24 = 0 := by decide
  exact key b.err b.ovr b.done (isBusy b)

/-- SEQ leaves IDLE only by an acceptance (10_state.md R30). -/
theorem BlockStep.busy_iff_of_idle {s : State} {b : Block} (hb : BlockStep s b) (hi : s.blk.seq = .idle) :
    b.seq = .busy ↔ ∃ v, acceptsCommand s v := by
  cases hb with
  | quiet hn => simp [hi, not_accepts_of_not_writesReg hn]
  | write reg v hw => simp [writeReg_seq, hw.accepts_iff, hi]
  | completion hc => simp [hc.2] at hi
  | reset hr => simp [Block.reset, not_accepts_of_not_writesReg hr.not_writesReg]

/-- SEQ leaves BUSY only by a completion or a reset (40_sequencer.md R140, R146). -/
theorem BlockStep.idle_iff_of_busy {s : State} {b : Block} (hb : BlockStep s b) (hs : s.blk.seq = .busy) :
    b.seq = .idle ↔ completes s ∨ resets s := by
  cases hb with
  | quiet hn hc hr => simp [hs, hc, hr]
  | write reg v hw =>
    have hbusy : (writeReg v s.blk reg).seq = .busy := (writeReg_seq v s.blk reg).2 (.inl hs)
    simp [hbusy, hw.not_completes, hw.not_resets]
  | completion hc => simp [hc]
  | reset hr => simp [Block.reset, hr]

/-- Settles O18, by the event the step is. -/
theorem sequencerTransitions : Obligations.SequencerTransitions := by
  intro s t h
  have hb := blockStep_of_step h
  exact ⟨hb.busy_iff_of_idle, hb.idle_iff_of_busy, statusWord_busy t.blk⟩

theorem BlockStep.done_iff {s : State} {b : Block} (hb : BlockStep s b) :
    b.done = true ↔ completes s ∨ (s.blk.done = true ∧ (¬∃ v, acceptsCommand s v) ∧ ¬resets s ∧
      ∀ v, writesReg s .status v → v.getLsbD 1 = false) := by
  cases hb with
  | quiet hn hc hr => simp [hn, hc, hr, not_accepts_of_not_writesReg hn]
  | write reg v hw =>
    rw [writeReg_done, hw.accepts_iff]
    simp [hw.writesReg_iff, hw.not_completes, hw.not_resets]
  | completion hc => simp [hc]
  | reset hr => simp [Block.reset, hr, hr.not_completes]

theorem BlockStep.ovr_iff {s : State} {b : Block} (hb : BlockStep s b) :
    b.ovr = true ↔ dropsWrite s ∨ (s.blk.ovr = true ∧ ¬resets s ∧
      ∀ v, writesReg s .status v → v.getLsbD 2 = false) := by
  cases hb with
  | quiet hn hc hr => simp [hn, hr, not_dropsWrite_of_not_writesReg hn]
  | write reg v hw =>
    rw [writeReg_ovr, hw.dropsWrite_iff]
    simp [hw.writesReg_iff, hw.not_resets]
  | completion hc =>
    have hn := hc.1.not_writesReg
    simp [hn, hc.not_resets, not_dropsWrite_of_not_writesReg hn]
  | reset hr => simp [Block.reset, hr, not_dropsWrite_of_not_writesReg hr.not_writesReg]

/-- Acceptance and reset clear DONE and ERR. -/
theorem BlockStep.cleared {s : State} {b : Block} (hb : BlockStep s b) (h : (∃ v, acceptsCommand s v) ∨ resets s) :
    b.done = false ∧ b.err = 0 := by
  obtain ⟨v, ha⟩ | hr := h
  · simp [hb.of_acceptsCommand ha]
  · simp [hb.of_resets hr, Block.reset]

theorem BlockStep.err_of_completes {s : State} {b : Block} (hb : BlockStep s b) (hc : completes s) :
    b.err = completionCode s.blk := by
  simp [hb.of_completes hc, pendingResult_code]

theorem BlockStep.err_unchanged {s : State} {b : Block} (hb : BlockStep s b) (ha : ¬∃ v, acceptsCommand s v)
    (hr : ¬resets s) (hc : ¬completes s) : b.err = s.blk.err := by
  cases hb with
  | quiet => rfl
  | write reg v hw => rw [writeReg_err, if_neg (hw.accepts_iff.not.1 ha)]
  | completion h => exact absurd h hc
  | reset h => exact absurd h hr

/-- Settles O19, field by field. -/
theorem statusFieldsAfterAnyStep : Obligations.StatusFieldsAfterAnyStep := by
  intro s t h
  have hb := blockStep_of_step h
  obtain ⟨-, hdone, hovr, herr⟩ := statusWord_fields t.blk
  obtain ⟨-, hdone', hovr', -⟩ := statusWord_fields s.blk
  obtain ⟨hbit3, hhigh⟩ := statusWord_reserved t.blk
  rw [hdone, hovr, hdone', hovr']
  exact ⟨statusWord_busy t.blk, hb.done_iff, hb.ovr_iff, herr, fun hclr => (hb.cleared hclr).2, hb.err_of_completes,
    hb.err_unchanged, hbit3, hhigh⟩

/-! ### The completion interrupt -/

theorem irq_eq_false_of_done {b : Block} (h : b.done = false) : irq b = false := by simp [irq, h]

/-- Settles O20: each named event says what it does to DONE and DONEIE, of which IRQ is the conjunction. -/
theorem interruptLevel : Obligations.InterruptLevel := by
  intro s t h
  have hb := blockStep_of_step h
  refine ⟨by simp [irq], fun hc => ?_, fun hclr => irq_eq_false_of_done (hb.cleared hclr).1,
    fun v hw hv => irq_eq_false_of_done ?_, fun v hw => ?_, ?_⟩
  · simp [hb.of_completes hc, irq]
  · simp [hb.of_writesReg hw, writeReg, hv]
  · simp [hb.of_writesReg hw, writeReg, irq]
  · rintro (hd | he)
    · simp [hb.of_dropsWrite hd, irq]
    · rw [hb.of_busErrors he]

/-! ### The result registers -/

/-- A result register that a completion changes had code 0 (10_state.md R34, 40_sequencer.md R143). -/
theorem code_of_commit_changes_results {r : CmdResult} {b : Block}
    (h : (commit r b).res0 ≠ b.res0 ∨ (commit r b).res1 ≠ b.res1) : r.code = 0 := by
  cases r with
  | ok x y => rfl
  | error e => simp at h

theorem BlockStep.results_changed {s : State} {b : Block} (hb : BlockStep s b)
    (h : b.res0 ≠ s.blk.res0 ∨ b.res1 ≠ s.blk.res1) : resets s ∨ (completes s ∧ b.err = 0) := by
  cases hb with
  | quiet => simp at h
  | write reg v => simp at h
  | completion hc => exact .inr ⟨hc, (commit_err _ _).trans (code_of_commit_changes_results h)⟩
  | reset hr => exact .inl hr

/-- Settles O21, by the event the step is. -/
theorem resultsChangeOnlyByErrorFreeCompletion : Obligations.ResultsChangeOnlyByErrorFreeCompletion :=
  fun _ _ h => (blockStep_of_step h).results_changed

/-! ### The registers keep their widths -/

/-- The result registers a command assigns have the given width. -/
def CmdResult.Fits (words : Nat) : CmdResult → Prop
  | .ok res0 res1 => (∀ x ∈ res0, x.length = words) ∧ ∀ x ∈ res1, x.length = words
  | .error _ => True

theorem resultRes0_fits {words : Nat} {x : Bank} (h : x.length = words) : (resultRes0 x).Fits words := by
  simp [resultRes0, CmdResult.Fits, h]

theorem divmodResult_fits {words : Nat} (old : DivRegs) {a b : Bank} (ha : a.length = words) (hb : b.length = words) :
    (divmodResult old a b).Fits words := by
  obtain ⟨hq, hr⟩ := divw_lengths old a b (ha.trans hb.symm)
  unfold divmodResult
  split
  · trivial
  · simp [CmdResult.Fits, hq, hr, ha]

theorem modexpResult_fits {words : Nat} (old : DivRegs) {base exp m : Bank} (hb : base.length = words)
    (he : exp.length = words) (hm : m.length = words) : (modexpResult old base exp m).Fits words := by
  unfold modexpResult
  split
  · trivial
  · exact resultRes0_fits (modexpf_length words old base exp m hb he hm)

theorem resultOf_fits {words : Nat} {b : Block} (i : Instr) (h : Block.Wf words b) : (resultOf i b).Fits words := by
  cases i with
  | add => exact resultRes0_fits (by simp [addw_length, h.opa, h.opb])
  | sub => exact resultRes0_fits (by simp [subw_length, h.opa, h.opb])
  | mul => exact resultRes0_fits (by simp [mulw_length, h.opa])
  | divmod => exact divmodResult_fits _ h.opa h.opb
  | modexp => exact modexpResult_fits _ h.opa h.opb h.opc

theorem pendingResult_fits {words : Nat} {b : Block} (h : Block.Wf words b) : (pendingResult b).Fits words := by
  cases hd : decode b.pend with
  | ok i => exact pendingResult_of_ok hd ▸ resultOf_fits i h
  | error e => exact pendingResult_of_error hd ▸ trivial

theorem length_getD {words : Nat} {x : Option Bank} {old : Bank} (hx : ∀ y ∈ x, y.length = words)
    (h : old.length = words) : (x.getD old).length = words := by
  cases x with
  | none => exact h
  | some y => exact hx y rfl

theorem commit_widths {words : Nat} {r : CmdResult} {b : Block} (hr : r.Fits words) (h : Block.Wf words b) :
    Block.Wf words (commit r b) := by
  cases r with
  | ok x y => exact ⟨h.opa, h.opb, h.opc, length_getD hr.1 h.res0, length_getD hr.2 h.res1, h.hidden⟩
  | error e => exact ⟨h.opa, h.opb, h.opc, h.res0, h.res1, h.hidden⟩

theorem withHidden_widths {words : Nat} {b : Block} {w : Hidden} (h : Block.Wf words b) (hw : Hidden.Wf words w) :
    Block.Wf words { b with hidden := w } :=
  ⟨h.opa, h.opb, h.opc, h.res0, h.res1, hw⟩

theorem reset_widths {words : Nat} {w : Hidden} (hw : Hidden.Wf words w) : Block.Wf words (Block.reset words w) := by
  constructor <;> simp [Block.reset, hw]

theorem hiddenReset_widths {words : Nat} (h : 1 ≤ words) : Hidden.Wf words (Hidden.reset words) := by
  constructor
  case bd => exact Nat.mul_pos (by decide) h
  all_goals simp [Hidden.reset]

/-! ### The invariant -/

/-- What the invariant asks of the block, W given. -/
structure Block.Legal (words : Nat) (b : Block) : Prop where
  widths  : Block.Wf words b
  pend    : b.pend = b.cmdLast
  code    : b.err = 0 ∨ b.err = 1 ∨ b.err = 2
  running : b.seq = .busy → b.done = false ∧ b.err = 0

/-- The invariant is supported parameters and a legal block. -/
theorem inv_iff {s : State} : s.Inv ↔ s.cfg.wellFormed = true ∧ Block.Legal s.cfg.words s.blk :=
  ⟨fun h => ⟨h.params, h.widths, h.pend, h.code, h.running⟩,
    fun ⟨hp, hb⟩ => ⟨hp, hb.widths, hb.pend, hb.code, hb.running⟩⟩

theorem accept_legal {words : Nat} {b : Block} (v : Word) (h : Block.Legal words b) :
    Block.Legal words (accept v b) := by
  obtain ⟨hopa, hopb, hopc, hres0, hres1, hhid⟩ := h.widths
  exact ⟨⟨hopa, hopb, hopc, hres0, hres1, hhid⟩, rfl, .inl rfl, fun _ => ⟨rfl, rfl⟩⟩

theorem writeReg_legal {words : Nat} {b : Block} (v : Word) (reg : Reg) (h : Block.Legal words b) :
    Block.Legal words (writeReg v b reg) := by
  by_cases hacc : reg = .cmd ∧ b.seq = .idle
  · obtain ⟨rfl, hi⟩ := hacc
    exact writeReg_accepted hi ▸ accept_legal v h
  · have herr : (writeReg v b reg).err = b.err := by rw [writeReg_err, if_neg hacc]
    refine ⟨writeReg_widths v reg h.widths, writeReg_pend v reg h.pend, herr ▸ h.code, fun hbusy => ?_⟩
    have hs : b.seq = .busy := by
      cases hs : b.seq with
      | busy => rfl
      | idle => simp_all [writeReg_seq]
    obtain ⟨hd, he⟩ := h.running hs
    refine ⟨?_, herr.trans he⟩
    rw [← Bool.not_eq_true, writeReg_done]
    simp [hd]

theorem commit_legal {words : Nat} {r : CmdResult} {b : Block} {w : Hidden} (hr : r.Fits words)
    (hw : Hidden.Wf words w) (h : Block.Legal words b) : Block.Legal words { commit r b with hidden := w } where
  widths := withHidden_widths (commit_widths hr h.widths) hw
  pend := by simpa using h.pend
  code := by simpa using r.code_cases
  running := by simp

theorem reset_legal {words : Nat} {w : Hidden} (hw : Hidden.Wf words w) : Block.Legal words (Block.reset words w) where
  widths := reset_widths hw
  pend := rfl
  code := .inl rfl
  running := by simp [Block.reset]

/-- Every event keeps the block legal. -/
theorem BlockStep.legal {s : State} {b : Block} (hb : BlockStep s b) (hi : s.Inv) : Block.Legal s.cfg.words b := by
  obtain ⟨hp, hl⟩ := inv_iff.1 hi
  have hfree := freeHidden_widths s.draws (wellFormed_bounds hp).1
  cases hb with
  | quiet => exact hl
  | write reg v => exact writeReg_legal v reg hl
  | completion => exact commit_legal (pendingResult_fits hl.widths) hfree hl
  | reset => exact reset_legal hfree

theorem step_cfg {s t : State} (h : step s = .next t) : t.cfg = s.cfg := by
  obtain ⟨t', h', hcfg, -⟩ := exists_step_of_wellFormed (step_next_params h)
  cases h.symm.trans h'
  exact hcfg

/-- Settles O30: the step keeps the parameters, and every event keeps the block legal. -/
theorem everyStepKeepsTheInvariant : Obligations.EveryStepKeepsTheInvariant := by
  intro s t hi h
  rw [inv_iff, step_cfg h]
  exact ⟨hi.params, (blockStep_of_step h).legal hi⟩

/-- Settles O31: supported parameters are all a step needs. -/
theorem legalStatesNeverStop : Obligations.LegalStatesNeverStop := by
  intro s hi
  obtain ⟨t, h, hcfg, -⟩ := exists_step_of_wellFormed hi.params
  exact ⟨t, h, hcfg⟩

/-! ### Reset -/

theorem reset_resetValues (words : Nat) (w : Hidden) : ResetValues words (Block.reset words w) where
  seq := rfl
  opa := rfl
  opb := rfl
  opc := rfl
  res0 := rfl
  res1 := rfl
  cmdLast := rfl
  pend := rfl
  status := by
    rw [statusWord, isBusy_of_idle rfl]
    simp [Block.reset]
  irqen := by simp [irqenWord, Block.reset]
  irq := rfl

theorem configWord_toNat {words : Nat} (h : words ≤ 1024) : (configWord words).toNat = words := by
  have hmod : words % 2 ^ 16 = words := Nat.mod_eq_of_lt (by omega)
  exact (BitVec.toNat_append (0 : BitVec 16) (BitVec.ofNat 16 words)).trans (by simpa using hmod)

/-- Settles O27: the reset step leaves the values of R47 and free working registers. -/
theorem resetStep : Obligations.ResetStep := by
  intro s rest hp ht
  obtain ⟨hpos, hle, -⟩ := wellFormed_bounds hp
  exact ⟨_, step_reset hp ht, reset_resetValues _ _, freeHidden_widths _ hpos, configWord_toNat hle⟩

/-- Settles O29: the block of R47 is legal with the reset working registers. -/
theorem resetStateIsLegal : Obligations.ResetStateIsLegal := by
  refine ⟨fun p hp => ⟨reset_resetValues _ _, inv_iff.2 ⟨hp, ?_⟩⟩, rfl⟩
  exact reset_legal (hiddenReset_widths (wellFormed_bounds hp).1)

/-! ### CONFIG and IRQEN -/

/-- A 4-byte access at an offset of BASE reaches what the map has there (20_memory.md R72, R73). -/
theorem accessReg_of_offset {p : Params} {a : Access} {off : Nat} (hw : a.width = 4) (ha : a.addr = p.base + off) :
    accessReg p a = mapOffset p.words off := by
  by_cases h4 : off % 4 = 0 <;> simp [accessReg, hw, offsetIn, ha, mapOffset, h4]

theorem step_write_reg {s : State} {a : Access} {rest : List Turn} {reg : Reg} {v : Word} (hp : s.cfg.wellFormed = true)
    (hn : accessNext s a rest) (hr : accessReg s.cfg a = some reg) (hk : a.kind = .write v) :
    step s = .next (afterAccess s a rest .ack (writeReg v s.blk reg)) := by
  rw [step_access hp hn, serviceAccess_write hn hr hk]

theorem step_read_reg {s : State} {a : Access} {rest : List Turn} {reg : Reg} (hp : s.cfg.wellFormed = true)
    (hn : accessNext s a rest) (hr : accessReg s.cfg a = some reg) (hk : a.kind = .read) :
    step s = .next (afterAccess s a rest (.data (readReg s.cfg.words s.blk reg)) s.blk) := by
  rw [step_access hp hn, serviceAccess_read hn hr hk]

theorem configWord_eq {words : Nat} (h : words ≤ 1024) : configWord words = BitVec.ofNat 32 words := by
  apply BitVec.eq_of_toNat_eq
  rw [configWord_toNat h, BitVec.toNat_ofNat]
  omega

theorem irqenWord_eq (b : Block) : irqenWord b = if b.doneIE then 0x00000001 else 0x00000000 := by
  unfold irqenWord
  cases b.doneIE <;> rfl

/-- Settles O11: the two offsets are CONFIG and IRQEN of the map, and their reads and writes are those of R37 and R38. -/
theorem configAndIrqenRegisters : Obligations.ConfigAndIrqenRegisters := by
  intro s a rest v hp hn hw
  obtain ⟨-, hle, -⟩ := wellFormed_bounds hp
  refine ⟨fun ha => ?_, fun ha => ?_⟩
  · have hr : accessReg s.cfg a = some .config := accessReg_of_offset hw ha
    refine ⟨step_write_reg hp hn hr, fun hk => ?_⟩
    rw [← configWord_eq hle]
    exact step_read_reg hp hn hr hk
  · have hr : accessReg s.cfg a = some .irqen := accessReg_of_offset hw ha
    refine ⟨step_write_reg hp hn hr, fun hk => ?_⟩
    rw [← irqenWord_eq]
    exact step_read_reg hp hn hr hk

/-! ### What a command's outcome depends on -/

theorem resultOf_congr {i : Instr} {b b' : Block} (ha : b.opa = b'.opa) (hb : b.opb = b'.opb)
    (hc : i = .modexp → b.opc = b'.opc) : resultOf i b = resultOf i b' := by
  cases i with
  | add | sub | mul => simp [resultOf, ha, hb]
  | divmod => simp [resultOf, divmodResult, ha, hb, divw_old b.hidden.div b'.hidden.div]
  | modexp => simp [resultOf, modexpResult, ha, hb, hc, modexpf_old b.hidden.div b'.hidden.div]

/-- Settles O44: both states complete with the result of the command, which reads only the operands. -/
theorem outcomeDependsOnOperandsOnly : Obligations.OutcomeDependsOnOperandsOnly := by
  intro i s s' ha hb hc
  exact ⟨resultOf i s.blk, exec_eq i s, resultOf_congr ha hb hc ▸ exec_eq i s'⟩

end Sys2Proof.Machine

/-! The host interface (20_memory.md): the register map, which accesses are rejected, what each accepted one answers and
changes, and what a host that polls finds. -/

namespace Sys2Proof.Machine

/-! ### The register map -/

/-- The number of the 4 KiB bank a register stands in (20_memory.md R72). -/
def Reg.bank : Reg → Nat
  | .cmd | .status | .config | .irqen => 0
  | .opa _ => 1
  | .opb _ => 2
  | .opc _ => 3
  | .res0 _ => 4
  | .res1 _ => 5

/-- The word of its bank a register stands at. -/
def Reg.index : Reg → Nat
  | .cmd => 0
  | .status => 1
  | .config => 2
  | .irqen => 3
  | .opa i | .opb i | .opc i | .res0 i | .res1 i => i

theorem offsetOf_eq (reg : Reg) : offsetOf reg = 0x1000 * reg.bank + 4 * reg.index := by cases reg <;> rfl

theorem Reg.index_lt {words : Nat} {reg : Reg} (hw : words ≤ 1024) (he : regExists words reg = true) :
    reg.index < 1024 := by
  cases reg with
  | cmd | status | config | irqen => simp [Reg.index]
  | opa i | opb i | opc i | res0 i | res1 i => exact (of_decide_eq_true he).trans_le hw

/-- The map has every register of the block at the offset R72 gives it. -/
theorem mapOffset_offsetOf {words : Nat} {reg : Reg} (hw : words ≤ 1024) (he : regExists words reg = true) :
    mapOffset words (offsetOf reg) = some reg := by
  have hi := Reg.index_lt hw he
  have h4 : offsetOf reg % 4 = 0 := by rw [offsetOf_eq]; omega
  have hbank : offsetOf reg / 0x1000 = reg.bank := by rw [offsetOf_eq]; omega
  have hindex : offsetOf reg % 0x1000 / 4 = reg.index := by rw [offsetOf_eq]; omega
  cases reg with
  | cmd | status | config | irqen => rfl
  | opa i | opb i | opc i | res0 i | res1 i =>
    have hlt : i < words := of_decide_eq_true he
    simp [mapOffset, h4, hbank, hindex, Reg.bank, Reg.index, hlt]

/-- The map has nothing else. -/
theorem regExists_of_mapOffset {words off : Nat} {reg : Reg} (h : mapOffset words off = some reg) :
    regExists words reg = true ∧ offsetOf reg = off := by
  unfold mapOffset at h
  split at h
  · cases h
  next h4 =>
    split at h
    next => split at h <;> cases h <;> exact ⟨rfl, rfl⟩
    case h_7 => cases h
    all_goals
      obtain ⟨hlt, rfl⟩ : off % 0x1000 / 4 < words ∧ _ := by simpa using h
      exact ⟨decide_eq_true hlt, by rw [offsetOf_eq]; simp only [Reg.bank, Reg.index]; omega⟩

/-- The map of R72 as one equation. -/
theorem mapOffset_eq_some {words off : Nat} {reg : Reg} (hw : words ≤ 1024) :
    mapOffset words off = some reg ↔ regExists words reg = true ∧ off = offsetOf reg := by
  constructor
  · intro h
    obtain ⟨he, ho⟩ := regExists_of_mapOffset h
    exact ⟨he, ho.symm⟩
  · rintro ⟨he, rfl⟩
    exact mapOffset_offsetOf hw he

theorem mapOffset_eq_none {words off : Nat} (hw : words ≤ 1024) :
    mapOffset words off = none ↔ ∀ reg, regExists words reg = true → offsetOf reg ≠ off := by
  rw [Option.eq_none_iff_forall_ne_some]
  simp only [ne_eq, mapOffset_eq_some hw, not_and, eq_comm (a := off)]

theorem offsetOf_lt {words : Nat} {reg : Reg} (hw : words ≤ 1024) (he : regExists words reg = true) :
    offsetOf reg < 0x6000 := by
  have hi := Reg.index_lt hw he
  have hb : reg.bank ≤ 5 := by cases reg <;> simp [Reg.bank]
  rw [offsetOf_eq]
  omega

/-- Settles O4: each clause is the map's equation at one register. -/
theorem registerMapExactly : Obligations.RegisterMapExactly := by
  intro words off hw
  have hnone (ho : 0x6000 ≤ off) : mapOffset words off = none :=
    (mapOffset_eq_none hw).2 fun reg he => ((offsetOf_lt hw he).trans_le ho).ne
  simp only [mapOffset_eq_some hw]
  simpa [regExists, offsetOf] using hnone

/-! ### Rejected accesses -/

/-- An access decodes to no register exactly for one of the three reasons of R73. -/
theorem accessReg_eq_none {p : Params} {a : Access} {off : Nat} (hp : p.wellFormed = true)
    (ha : a.addr = p.base + off) :
    accessReg p a = none ↔
      a.width ≠ 4 ∨ off % 4 ≠ 0 ∨ ∀ reg, regExists p.words reg = true → offsetOf reg ≠ off := by
  obtain ⟨-, hle, -⟩ := wellFormed_bounds hp
  by_cases hw : a.width = 4
  · rw [accessReg_of_offset hw ha, ← mapOffset_eq_none hle]
    simp +contextual [hw, mapOffset]
  · simp [accessReg, hw]

/-- An access that decodes to a register is answered, and not by a bus error. -/
theorem step_accepted {s : State} {a : Access} {rest : List Turn} {reg : Reg} (hp : s.cfg.wellFormed = true)
    (hn : accessNext s a rest) (hr : accessReg s.cfg a = some reg) :
    ∃ r b, step s = .next (afterAccess s a rest r b) ∧ ∀ addr, r ≠ .busError addr := by
  cases hk : a.kind with
  | read => exact ⟨_, _, step_read_reg hp hn hr hk, by simp⟩
  | write v => exact ⟨_, _, step_write_reg hp hn hr hk, by simp⟩

theorem step_rejected {s : State} {a : Access} {rest : List Turn} (hp : s.cfg.wellFormed = true)
    (hn : accessNext s a rest) (hr : accessReg s.cfg a = none) :
    step s = .next (afterAccess s a rest (.busError a.addr) s.blk) := by
  rw [step_access hp hn, serviceAccess_error hn hr]

/-- The response of a serviced access is on top of the answers. -/
theorem response_of_afterAccess_eq {s : State} {a : Access} {rest : List Turn} {r r' : Response} {b b' : Block}
    (h : afterAccess s a rest r b = afterAccess s a rest r' b') : r = r' := by
  simpa using congrArg State.responses h

/-- Settles O5: the bus error is the answer exactly when the access decodes to no register. -/
theorem busErrorExactlyOnRejectedAccess : Obligations.BusErrorExactlyOnRejectedAccess := by
  intro s a rest off hp hn ha
  rw [← accessReg_eq_none hp ha]
  refine ⟨step_rejected hp hn, fun hstep => ?_⟩
  cases hr : accessReg s.cfg a with
  | none => rfl
  | some reg =>
    obtain ⟨r, b, hstep', hne⟩ := step_accepted hp hn hr
    have heq : afterAccess s a rest r b = afterAccess s a rest (.busError a.addr) s.blk := by
      simpa [hstep'] using hstep
    exact absurd (response_of_afterAccess_eq heq) (hne _)

/-! ### Accepted reads and writes -/

/-- A 4-byte access at the offset of a register reaches it. -/
theorem accessReg_of_reg {p : Params} {a : Access} {reg : Reg} (hp : p.wellFormed = true) (hw : a.width = 4)
    (he : regExists p.words reg = true) (ha : a.addr = p.base + offsetOf reg) : accessReg p a = some reg := by
  obtain ⟨-, hle, -⟩ := wellFormed_bounds hp
  rw [accessReg_of_offset hw ha, mapOffset_offsetOf hle he]

theorem irqenWord_toNat (b : Block) : (irqenWord b).toNat = if b.doneIE then 1 else 0 := by
  rw [irqenWord_eq]
  split <;> rfl

/-- Settles O6: the read reaches its register, and a word of a bank W words wide is there to be read. -/
theorem readAnswersCurrentValue : Obligations.ReadAnswersCurrentValue := by
  intro s a rest reg hi hn hk hw he ha
  obtain ⟨hopa, hopb, hopc, hres0, hres1, -⟩ := hi.widths
  refine ⟨_, step_read_reg hi.params hn (accessReg_of_reg hi.params hw he ha) hk, ?_⟩
  cases reg with
  | cmd | status => simp [readReg]
  | config => simpa [readReg] using configWord_toNat (wellFormed_bounds hi.params).2.1
  | irqen => simpa [readReg] using irqenWord_toNat s.blk
  | opa i | opb i | opc i | res0 i | res1 i =>
    have hlt : i < s.cfg.words := of_decide_eq_true he
    simp [readReg, hopa, hopb, hopc, hres0, hres1, hlt]

/-- Settles O10: the offsets are those of CONFIG and of result words, whose writes the block ignores. -/
theorem readOnlyWritesIgnored : Obligations.ReadOnlyWritesIgnored := by
  intro s a rest v off hp hn hk hw ha ho
  have ignored {reg : Reg} (he : regExists s.cfg.words reg = true) (hoff : off = offsetOf reg)
      (hreg : writeReg v s.blk reg = s.blk) : step s = .next (afterAccess s a rest .ack s.blk) := by
    rw [step_write_reg hp hn (accessReg_of_reg hp hw he (hoff ▸ ha)) hk, hreg]
  obtain hoff | ⟨i, hi, hoff | hoff⟩ := ho
  · exact ignored (reg := .config) rfl hoff rfl
  · exact ignored (reg := .res0 i) (decide_eq_true hi) hoff rfl
  · exact ignored (reg := .res1 i) (decide_eq_true hi) hoff rfl

/-- The machine with the access `a` next, issued by the given master. -/
def issuedBy (master : Nat) (a : Access) (rest : List Turn) (s : State) : State :=
  { s with turns := .access { a with master := master } :: rest }

/-- How an access is serviced, whichever master it is from (20_memory.md R86). -/
theorem step_access_of_master {s : State} (a : Access) (rest : List Turn) (hp : s.cfg.wellFormed = true) :
    ∃ r b, ∀ master, step (issuedBy master a rest s) =
      .next (afterAccess s { a with master := master } rest r b) := by
  obtain ⟨own, kind, addr, width⟩ := a
  cases hr : accessReg s.cfg ⟨own, kind, addr, width⟩ with
  | none => exact ⟨.busError addr, s.blk, fun m => step_rejected (s := issuedBy m _ rest s) hp rfl hr⟩
  | some reg =>
    cases kind with
    | read =>
      exact ⟨.data (readReg s.cfg.words s.blk reg), s.blk,
        fun m => step_read_reg (s := issuedBy m _ rest s) hp rfl hr rfl⟩
    | write v =>
      exact ⟨.ack, writeReg v s.blk reg, fun m => step_write_reg (s := issuedBy m _ rest s) hp rfl hr rfl⟩

/-- Settles O12: the answer and the block after the access are the same for every master. -/
theorem mastersAreNotToldApart : Obligations.MastersAreNotToldApart := by
  intro s t a rest other hn hstep
  obtain ⟨r, b, hserv⟩ := step_access_of_master a rest (step_next_params hstep)
  have hown : step s = .next (afterAccess s a rest r b) := by
    simpa [issuedBy, ← show s.turns = .access a :: rest from hn] using hserv a.master
  obtain rfl : t = afterAccess s a rest r b := by simpa [hown] using hstep.symm
  exact ⟨r, rfl, hserv other⟩

/-! ### Operand words written while idle -/

/-- A bank after a word of it was written. -/
theorem set_changes_one_word {words : Nat} {bank : Bank} (v : Word) (i : Nat) (hl : bank.length = words) :
    (bank.set i v).length = words ∧ ∀ j < words, (bank.set i v)[j]? = if j = i then some v else bank[j]? := by
  refine ⟨by rw [List.length_set, hl], fun j hj => ?_⟩
  rw [List.getElem?_set]
  by_cases hji : j = i
  · subst hji; simp [hl, hj]
  · simp [hji, Ne.symm hji]

/-- Settles O7: the write reaches the word, which `List.set` replaces in its bank. -/
theorem operandWriteWhileIdle : Obligations.OperandWriteWhileIdle := by
  intro s a rest v i hi hn hk hw hlt hs
  have hexists := decide_eq_true hlt
  have hidle := isBusy_of_idle hs
  have hstep {reg : Reg} (he : regExists s.cfg.words reg = true) (ha : a.addr = s.cfg.base + offsetOf reg) :=
    step_write_reg hi.params hn (accessReg_of_reg hi.params hw he ha) hk
  refine ⟨fun ha => ⟨_, ?_, set_changes_one_word v i hi.widths.opa⟩,
    fun ha => ⟨_, ?_, set_changes_one_word v i hi.widths.opb⟩,
    fun ha => ⟨_, ?_, set_changes_one_word v i hi.widths.opc⟩⟩
  · simpa [writeReg, hidle] using hstep (reg := .opa i) hexists (ha.trans (Nat.add_assoc _ _ _))
  · simpa [writeReg, hidle] using hstep (reg := .opb i) hexists (ha.trans (Nat.add_assoc _ _ _))
  · simpa [writeReg, hidle] using hstep (reg := .opc i) hexists (ha.trans (Nat.add_assoc _ _ _))

/-- The bank after the words of `x` were written to it in the given order. -/
def loadWords (x : Nat) (order : List Nat) (bank : Bank) : Bank := order.foldl (fun b i => b.set i (word x i)) bank

theorem loadWords_cons (x i : Nat) (order : List Nat) (bank : Bank) :
    loadWords x (i :: order) bank = loadWords x order (bank.set i (word x i)) := rfl

theorem loadWords_length (x : Nat) (order : List Nat) (bank : Bank) :
    (loadWords x order bank).length = bank.length := by
  induction order generalizing bank with
  | nil => rfl
  | cons i order ih => rw [loadWords_cons, ih, List.length_set]

/-- Whatever the order, a word written to holds that word of `x`, and no other word changes. -/
theorem loadWords_getElem? (x : Nat) (order : List Nat) (bank : Bank) {j : Nat} (hj : j < bank.length) :
    (loadWords x order bank)[j]? = if j ∈ order then some (word x j) else bank[j]? := by
  induction order generalizing bank with
  | nil => simp [loadWords]
  | cons i order ih =>
    obtain ⟨hl, hset⟩ := set_changes_one_word (word x i) i (Eq.refl bank.length)
    rw [loadWords_cons, ih _ (hl ▸ hj), hset j hj]
    by_cases hji : j = i <;> simp [hji]

/-- An order that covers every index leaves `x` itself (00_scope.md R10). -/
theorem loadWords_of_covers {x words : Nat} {order : List Nat} {bank : Bank} (hl : bank.length = words)
    (hcov : ∀ i < words, i ∈ order) : loadWords x order bank = ofVal words x := by
  apply List.ext_getElem?
  intro j
  by_cases hj : j < words
  · rw [loadWords_getElem? x order bank (hl ▸ hj), if_pos (hcov j hj)]
    simp [ofVal, hj]
  · rw [List.getElem?_eq_none (by rw [loadWords_length]; omega), List.getElem?_eq_none (by simpa using hj)]

/-- The access that writes word `i` of `x` to OPA. -/
def loadAccess (master x base i : Nat) : Access :=
  { master := master, kind := .write (word x i), addr := base + 0x1000 + 4 * i, width := 4 }

/-- The turns of a load of `x` in the given order (R74). -/
def loadTurns (master x base : Nat) (order : List Nat) : List Turn :=
  order.map fun i => .access (loadAccess master x base i)

/-- One write of a load. -/
theorem step_load {s : State} {master x i : Nat} {rest : List Turn} (hp : s.cfg.wellFormed = true)
    (hs : s.blk.seq = .idle) (hi : i < s.cfg.words) (hn : accessNext s (loadAccess master x s.cfg.base i) rest) :
    step s = .next (afterAccess s (loadAccess master x s.cfg.base i) rest .ack
      { s.blk with opa := s.blk.opa.set i (word x i) }) := by
  have hr : accessReg s.cfg (loadAccess master x s.cfg.base i) = some (.opa i) :=
    accessReg_of_reg hp rfl (decide_eq_true hi) (Nat.add_assoc _ _ _)
  rw [step_write_reg hp hn hr rfl]
  simp [writeReg, isBusy_of_idle hs]

/-- The writes of a load change OPA, the schedule and the answers only. -/
theorem run_load {s : State} {master x : Nat} {order : List Nat} {rest : List Turn} (hp : s.cfg.wellFormed = true)
    (hs : s.blk.seq = .idle) (ho : ∀ i ∈ order, i < s.cfg.words)
    (ht : s.turns = loadTurns master x s.cfg.base order ++ rest) :
    ∃ resp, Host.Core.run Sys2Proof.core order.length s =
      .next { s with blk := { s.blk with opa := loadWords x order s.blk.opa }, turns := rest, responses := resp } := by
  induction order generalizing s with
  | nil => exact ⟨s.responses, by rw [← show s.turns = rest from ht]; rfl⟩
  | cons i order ih =>
    obtain ⟨hi, ho⟩ := List.forall_mem_cons.1 ho
    have hstep := step_load hp hs hi ht
    obtain ⟨resp, hrun⟩ := ih (s := afterAccess s (loadAccess master x s.cfg.base i)
      (loadTurns master x s.cfg.base order ++ rest) .ack { s.blk with opa := s.blk.opa.set i (word x i) }) hp hs ho rfl
    exact ⟨resp, (run_succ _ hstep).trans hrun⟩

/-- Settles O8: the run leaves the written words in OPA, and written in any covering order they are those of x. -/
theorem loadOperandInAnyOrder : Obligations.LoadOperandInAnyOrder := by
  intro s master x order rest hi hs hx hcov ht
  obtain ⟨resp, hrun⟩ := run_load hi.params hs (fun i => (hcov i).1) ht
  rw [loadWords_of_covers hi.widths.opa fun i => (hcov i).2] at hrun
  exact ⟨_, resp, by rw [val_ofVal, Nat.mod_eq_of_lt hx], ofVal_length _ _, hrun⟩

/-! ### What a host that polls finds -/

/-- No host write changes the operands or the pending word of a busy block (20_memory.md R85, 40_sequencer.md R145). -/
theorem writeReg_busy_operands {b : Block} (v : Word) (reg : Reg) (hb : b.seq = .busy) :
    (writeReg v b reg).opa = b.opa ∧ (writeReg v b reg).opb = b.opb ∧ (writeReg v b reg).opc = b.opc ∧
      (writeReg v b reg).pend = b.pend := by
  cases reg with
  | cmd | opa | opb | opc => simp [writeReg, isBusy_of_busy hb]
  | status | config | irqen | res0 | res1 => simp [writeReg]

/-- While the block is busy no event but a reset changes the operands or the pending word. -/
theorem BlockStep.operands_of_busy {s : State} {b : Block} (hb : BlockStep s b) (hs : s.blk.seq = .busy)
    (hr : ¬resets s) : b.opa = s.blk.opa ∧ b.opb = s.blk.opb ∧ b.opc = s.blk.opc ∧ b.pend = s.blk.pend := by
  cases hb with
  | quiet => simp
  | write reg v => exact writeReg_busy_operands v reg hs
  | completion => simp
  | reset h => exact absurd h hr

/-- Settles O22: a busy block drops operand and CMD writes, and acceptance writes no operand register. -/
theorem operandsStableWhileBusy : Obligations.OperandsStableWhileBusy := by
  intro s t h
  have hb := blockStep_of_step h
  exact ⟨hb.operands_of_busy, fun v ha => by simp [hb.of_acceptsCommand ha]⟩

theorem eq_idle_of_ne_busy {q : Seq} (h : q ≠ .busy) : q = .idle := by
  cases q with
  | idle => rfl
  | busy => exact absurd rfl h

theorem eq_busy_of_ne_idle {q : Seq} (h : q ≠ .idle) : q = .busy := by
  cases q with
  | idle => exact absurd rfl h
  | busy => rfl

/-- What a command leaves for the host to find: the result registers and the error code. -/
structure SameOutcome (b c : Block) : Prop where
  res0 : c.res0 = b.res0
  res1 : c.res1 = b.res1
  err  : c.err = b.err

theorem SameOutcome.trans {a b c : Block} (hab : SameOutcome a b) (hbc : SameOutcome b c) : SameOutcome a c :=
  ⟨hbc.res0.trans hab.res0, hbc.res1.trans hab.res1, hbc.err.trans hab.err⟩

/-- The step is neither a reset nor an acceptance. -/
def Undisturbed (s : State) : Prop := ¬resets s ∧ ¬∃ v, acceptsCommand s v

/-- A step that is no completion either keeps the outcome. -/
theorem BlockStep.sameOutcome {s : State} {b : Block} (hb : BlockStep s b) (hu : Undisturbed s) (hc : ¬completes s) :
    SameOutcome s.blk b where
  res0 := by_contra fun h => (hb.results_changed (.inl h)).elim hu.1 fun h => hc h.1
  res1 := by_contra fun h => (hb.results_changed (.inr h)).elim hu.1 fun h => hc h.1
  err := hb.err_unchanged hu.2 hu.1 hc

/-- The pending result depends on the operands and the pending word only. -/
theorem pendingResult_congr {b c : Block}
    (h : c.opa = b.opa ∧ c.opb = b.opb ∧ c.opc = b.opc ∧ c.pend = b.pend) : pendingResult c = pendingResult b := by
  obtain ⟨ha, hb, hc, hp⟩ := h
  cases hd : decode b.pend with
  | ok i => rw [pendingResult_of_ok hd, pendingResult_of_ok (hp ▸ hd), resultOf_congr ha hb fun _ => hc]
  | error e => rw [pendingResult_of_error hd, pendingResult_of_error (hp ▸ hd)]

/-- A completion's outcome is the same from two blocks with the same outcome so far. -/
theorem SameOutcome.commit_congr {b c : Block} (h : SameOutcome b c) (r : CmdResult) :
    SameOutcome (commit r b) (commit r c) := by
  cases r with
  | ok x y => exact ⟨by simp [h.res0], by simp [h.res1], rfl⟩
  | error e => exact ⟨h.res0, h.res1, rfl⟩

/-- Every step of the run is undisturbed. -/
def UndisturbedFor (k : Nat) (s : State) : Prop :=
  ∀ j u, j < k → Host.Core.run Sys2Proof.core j s = .next u → Undisturbed u

theorem UndisturbedFor.head {k : Nat} {s : State} (h : UndisturbedFor (k + 1) s) : Undisturbed s :=
  h 0 s k.succ_pos rfl

theorem UndisturbedFor.tail {k : Nat} {s t : State} (h : UndisturbedFor (k + 1) s) (hstep : step s = .next t) :
    UndisturbedFor k t :=
  fun j u hj hu => h (j + 1) u (Nat.succ_lt_succ hj) ((run_succ j hstep).trans hu)

/-- What an undisturbed run from a state leaves: from an idle block the outcome it has, from a busy block, once that is
idle again, the outcome of the pending command. -/
theorem run_undisturbed {k : Nat} {s t : State} (hp : s.cfg.wellFormed = true)
    (hrun : Host.Core.run Sys2Proof.core k s = .next t) (hu : UndisturbedFor k s) (ht : t.blk.seq = .idle) :
    (s.blk.seq = .idle → SameOutcome s.blk t.blk) ∧
    (s.blk.seq = .busy → SameOutcome (commit (pendingResult s.blk) s.blk) t.blk) := by
  induction k generalizing s with
  | zero =>
    cases hrun
    exact ⟨fun _ => ⟨rfl, rfl, rfl⟩, fun hs => by simp [hs] at ht⟩
  | succ k ih =>
    obtain ⟨u, hstep, hcfg, -⟩ := exists_step_of_wellFormed hp
    obtain ⟨ihidle, ihbusy⟩ := ih (hcfg ▸ hp) ((run_succ k hstep).symm.trans hrun) (hu.tail hstep)
    have hb := blockStep_of_step hstep
    have hquiet := hb.sameOutcome hu.head
    constructor
    · intro hs
      have hidle : u.blk.seq = .idle := eq_idle_of_ne_busy fun hbusy => hu.head.2 ((hb.busy_iff_of_idle hs).1 hbusy)
      exact (hquiet fun hc => by simp [hc.2] at hs).trans (ihidle hidle)
    · intro hs
      by_cases hc : completes s
      · have hdone : SameOutcome (commit (pendingResult s.blk) s.blk) u.blk := by
          rw [hb.of_completes hc]
          exact ⟨rfl, rfl, rfl⟩
        exact hdone.trans (ihidle ((hb.idle_iff_of_busy hs).2 (.inl hc)))
      · have hbusy : u.blk.seq = .busy :=
          eq_busy_of_ne_idle fun hi => ((hb.idle_iff_of_busy hs).1 hi).elim hc hu.head.1
        have hpend := pendingResult_congr (hb.operands_of_busy hs hu.head.1)
        exact ((hquiet hc).commit_congr _).trans (hpend ▸ ihbusy hbusy)

/-- Settles O24: STATUS shows an idle block, and the undisturbed run left there the outcome of the pending command. -/
theorem polledResultsAreTheCommandsOwn : Obligations.PolledResultsAreTheCommandsOwn := by
  intro k s t hp hs hrun hu ht
  have hidle : t.blk.seq = .idle := eq_idle_of_ne_busy fun hbusy =>
    Bool.false_ne_true (ht.symm.trans ((statusWord_busy t.blk).2 hbusy))
  obtain ⟨hres0, hres1, herr⟩ := (run_undisturbed hp hrun hu hidle).2 hs
  refine ⟨fun i hd => ?_, fun e hd => ?_⟩
  · rw [pendingResult_of_ok hd] at hres0 hres1 herr
    exact ⟨_, exec_eq i s, hres0, hres1, herr⟩
  · rw [pendingResult_of_error hd] at hres0 hres1 herr
    exact ⟨hres0, hres1, herr⟩

end Sys2Proof.Machine

/-! The encoding (30_encoding.md): the command words, the accesses of each line of a host program, and what a host finds
that waits for a command and stores its result. -/

namespace Sys2Proof.Machine

/-! ### The command words -/

/-- The decoder as one equation: a word decodes to a command exactly when it is the command's number (R101, R104). -/
theorem decode_eq_ok_iff {v : Word} {i : Instr} : decode v = .ok i ↔ v.toNat = (opcodeOf i).toNat := by
  rw [← encode_toNat, BitVec.toNat_inj]
  constructor
  · exact eq_encode_of_decode
  · rintro rfl
    exact decode_encode i

/-- The numbers of the commands are 1 to 5 (R101). -/
theorem exists_opcode_iff (n : Nat) : (∃ i, n = (opcodeOf i).toNat) ↔ 1 ≤ n ∧ n ≤ 5 := by
  constructor
  · rintro ⟨i, rfl⟩
    cases i <;> decide
  · rintro ⟨h1, h5⟩
    interval_cases n
    · exact ⟨.add, rfl⟩
    · exact ⟨.sub, rfl⟩
    · exact ⟨.mul, rfl⟩
    · exact ⟨.divmod, rfl⟩
    · exact ⟨.modexp, rfl⟩

/-- Settles O2: a word is legal exactly when it is a command's number, and those are 1 to 5. -/
theorem legalWordsExactly : Obligations.LegalWordsExactly := by
  intro v
  simp only [decode_eq_ok_iff, exists_opcode_iff]
  refine ⟨?_, Iff.rfl, Iff.rfl, Iff.rfl, Iff.rfl, Iff.rfl⟩
  omega

/-- Settles O3: the encoder is the decoder's inverse on the command words. -/
theorem decodeAndEncodeAgree : Obligations.DecodeAndEncodeAgree :=
  ⟨fun i _ => decode_encode i, fun _ _ h => (eq_encode_of_decode h).symm⟩

theorem decodeOp_eq_none : ∀ op : BitVec 4, op.toNat = 0 ∨ 6 ≤ op.toNat → decodeOp op = none := by decide

theorem opField_zero_append (op : BitVec 4) : opField ((0 : BitVec 28) ++ op) = op := by
  unfold opField
  exact BitVec.extractLsb'_append_eq_right

theorem rsvdField_zero_append (op : BitVec 4) : rsvdField ((0 : BitVec 28) ++ op) = 0 := by
  unfold rsvdField
  exact BitVec.extractLsb'_append_eq_left

/-- With RSVD = 0 an OP outside the map is the reason a word is illegal (R101, R103). -/
theorem decode_zero_append {op : BitVec 4} (h : op.toNat = 0 ∨ 6 ≤ op.toNat) :
    decode ((0 : BitVec 28) ++ op) = .error (.opcode op) := by
  rw [decode, rsvdField_zero_append, opField_zero_append, decodeOp_eq_none op h, if_neg (not_not_intro rfl)]

/-- Settles O1: the five words are the encoder's, and OP 0x0 and 0x6 to 0xF are outside the map. -/
theorem opcodeMapDecodes : Obligations.OpcodeMapDecodes :=
  ⟨decode_encode .add, decode_encode .sub, decode_encode .mul, decode_encode .divmod, decode_encode .modexp,
    decode_zero_append (op := 0x0) (.inl rfl), fun _ h => decode_zero_append (.inr h)⟩

/-! ### An illegal word runs to its completion -/

theorem completionCode_eq_one_iff (b : Block) : completionCode b = 1 ↔ b.pend.toNat = 0 ∨ 5 < b.pend.toNat := by
  unfold completionCode
  split
  next h => simp [h]
  next h => split_ifs <;> simp [h]

/-- A completion that reports an error writes no result register (40_sequencer.md R143). -/
theorem commit_results_of_code {r : CmdResult} (b : Block) (h : r.code ≠ 0) :
    (commit r b).res0 = b.res0 ∧ (commit r b).res1 = b.res1 :=
  ⟨by_contra fun hn => h (code_of_commit_changes_results (.inl hn)),
    by_contra fun hn => h (code_of_commit_changes_results (.inr hn))⟩

/-- A CMD write to an idle block and the sequencer's turn after it. -/
theorem run_command {s : State} {a : Access} {v : Word} {rest : List Turn} (hp : s.cfg.wellFormed = true)
    (hn : accessNext s a (.sequencer :: rest)) (hk : a.kind = .write v) (hr : accessReg s.cfg a = some .cmd)
    (hi : s.blk.seq = .idle) :
    Host.Core.run Sys2Proof.core 2 s = .next (complete (pendingResult (accept v s.blk))
      (popTurn (afterAccess s a (.sequencer :: rest) .ack (accept v s.blk)))) := by
  have haccept := step_write_reg hp hn hr hk
  rw [writeReg_accepted hi] at haccept
  have hcomplete := step_completes (s := afterAccess s a (.sequencer :: rest) .ack (accept v s.blk)) hp
    ⟨.inr ⟨rest, rfl⟩, rfl⟩
  exact (run_succ 1 haccept).trans (run_succ 0 hcomplete)

/-- Settles O17: the word is accepted and completes with its code, which is 1 exactly outside 1 to 5. -/
theorem illegalWordIsAcceptedAndReported : Obligations.IllegalWordIsAcceptedAndReported := by
  intro s a v rest hp hn hk hr hi
  have hcode := pendingResult_code (accept v s.blk)
  refine ⟨_, run_command hp hn hk hr hi, by simp, by simp, by simp, by simp, ?_, ?_⟩
  · have h := completionCode_eq_one_iff (accept v s.blk)
    rw [accept_pend] at h
    simp only [complete_blk, popTurn_blk, afterAccess_blk, commit_err, hcode, h]
    omega
  · intro herr
    have hne : (pendingResult (accept v s.blk)).code ≠ 0 := by
      simp only [complete_blk, popTurn_blk, afterAccess_blk, commit_err] at herr
      simp [herr]
    simpa using commit_results_of_code (accept v s.blk) hne

/-! ### The accesses of a host program's lines -/

/-- The offset a primitive line accesses (R106). -/
def HostLine.offset : HostLine → BitVec 32
  | .w off _ => off
  | .r off _ => off

/-- The access of a line at a register's offset reaches the register. -/
theorem accessReg_lineAccess {p : Params} {l : HostLine} {reg : Reg} (master : Nat) (hp : p.wellFormed = true)
    (he : regExists p.words reg = true) (hl : l.offset.toNat = offsetOf reg) :
    accessReg p (lineAccess p master l) = some reg := by
  cases l with
  | w off data | r off x => exact accessReg_of_reg hp rfl he (congrArg (p.base + ·) hl)

/-- Word i of an operand register, as the map has it. -/
def OperandReg.wordReg : OperandReg → Nat → Reg
  | .opa => .opa
  | .opb => .opb
  | .opc => .opc

/-- Word i of a result register, as the map has it. -/
def ResultReg.wordReg : ResultReg → Nat → Reg
  | .res0 => .res0
  | .res1 => .res1

theorem operandBank_offset {i : Nat} (x : OperandReg) (hi : i < 1024) :
    (bankOffset (operandBank x) i).toNat = offsetOf (x.wordReg i) := by
  cases x <;> simp only [bankOffset, operandBank, OperandReg.wordReg, offsetOf, BitVec.toNat_ofNat] <;> omega

theorem resultBank_offset {i : Nat} (y : ResultReg) (hi : i < 1024) :
    (bankOffset (resultBank y) i).toNat = offsetOf (y.wordReg i) := by
  cases y <;> simp only [bankOffset, resultBank, ResultReg.wordReg, offsetOf, BitVec.toNat_ofNat] <;> omega

theorem accessReg_load {p : Params} {i : Nat} (master : Nat) (x : OperandReg) (data : Word)
    (hp : p.wellFormed = true) (hi : i < p.words) :
    accessReg p (lineAccess p master (.w (bankOffset (operandBank x) i) data)) = some (x.wordReg i) := by
  obtain ⟨-, hle, -⟩ := wellFormed_bounds hp
  refine accessReg_lineAccess master hp ?_ (operandBank_offset x (hi.trans_le hle))
  cases x <;> exact decide_eq_true hi

theorem accessReg_store {p : Params} {i : Nat} (master : Nat) (y : ResultReg) (x : HostVar)
    (hp : p.wellFormed = true) (hi : i < p.words) :
    accessReg p (lineAccess p master (.r (bankOffset (resultBank y) i) x)) = some (y.wordReg i) := by
  obtain ⟨-, hle, -⟩ := wellFormed_bounds hp
  refine accessReg_lineAccess master hp ?_ (resultBank_offset y (hi.trans_le hle))
  cases y <;> exact decide_eq_true hi

/-- What the block sees of a line: the register its access reaches, and what it does there. -/
def lineSeen (p : Params) (master : Nat) (l : HostLine) : Option Reg × AccessKind :=
  (accessReg p (lineAccess p master l), (lineAccess p master l).kind)

/-- LOAD writes the words of its value in increasing order (R107). -/
theorem lineSeen_load {p : Params} (master value : Nat) (x : OperandReg) (hp : p.wellFormed = true) :
    (expandPseudo p.words (.load x value)).map (lineSeen p master) =
      (List.range p.words).map fun k => (some (x.wordReg k), .write (word value k)) := by
  simp only [expandPseudo, List.map_map]
  refine List.map_congr_left fun k hk => ?_
  exact congrArg (·, _) (accessReg_load master x _ hp (List.mem_range.1 hk))

/-- STORE reads the words of its register in increasing order (R107). -/
theorem lineSeen_store {p : Params} (master : Nat) (y : ResultReg) (x : String) (hp : p.wellFormed = true) :
    (expandPseudo p.words (.store y x)).map (lineSeen p master) =
      (List.range p.words).map fun k => (some (y.wordReg k), .read) := by
  simp only [expandPseudo, List.map_map]
  refine List.map_congr_left fun k hk => ?_
  exact congrArg (·, _) (accessReg_store master y _ hp (List.mem_range.1 hk))

/-- A pseudo-instruction of one line accesses the one register at the line's offset. -/
theorem lineSeen_single {p : Params} {l : HostLine} {reg : Reg} (master : Nat) (hp : p.wellFormed = true)
    (he : regExists p.words reg = true) (hl : l.offset.toNat = offsetOf reg) :
    [l].map (lineSeen p master) = [(some reg, (lineAccess p master l).kind)] :=
  congrArg (fun r => [(r, _)]) (accessReg_lineAccess master hp he hl)

/-- Settles O13: LOAD and STORE access a bank word by word, and every other line accesses CMD, STATUS or IRQEN. -/
theorem pseudoInstructionsReachTheirRegisters : Obligations.PseudoInstructionsReachTheirRegisters := by
  intro p master value i v x hp
  exact ⟨lineSeen_load master value .opa hp, lineSeen_load master value .opb hp, lineSeen_load master value .opc hp,
    lineSeen_store master .res0 x hp, lineSeen_store master .res1 x hp,
    lineSeen_single (reg := .cmd) master hp rfl rfl, lineSeen_single (reg := .cmd) master hp rfl rfl,
    lineSeen_single (reg := .status) master hp rfl rfl, lineSeen_single (reg := .status) master hp rfl rfl,
    lineSeen_single (reg := .status) master hp rfl rfl, lineSeen_single (reg := .irqen) master hp rfl rfl,
    lineSeen_single (reg := .irqen) master hp rfl rfl⟩

/-! ### WAIT -/

/-- Bit 0 of a word as a number's parity. -/
theorem toNat_mod_two_beq_zero (w : Word) : (w.toNat % 2 == 0) = !w.getLsbD 0 := by
  rw [BitVec.getLsbD, Nat.testBit_zero]
  obtain h | h := Nat.mod_two_eq_zero_or_one w.toNat <;> simp [h]

/-- A WAIT is over exactly when the STATUS it has read shows an idle block (R107, 10_state.md R36). -/
theorem waitOver_of_status {h : HostRun} {b : Block} (hv : h.valueOf .waitStatus = some (statusWord b).toNat) :
    h.waitOver = !isBusy b := by
  simp only [HostRun.waitOver, hv]
  rw [toNat_mod_two_beq_zero, (statusWord_fields b).1]

/-- The machine after a poll: the master has the STATUS word, and nothing else changed. -/
def afterPoll (master : Nat) (s : State) : State :=
  { s with responses := (master, .data (statusWord s.blk)) :: s.responses }

/-- The host that has taken in the STATUS word of its poll. -/
def HostRun.polled (h : HostRun) : HostRun :=
  HostRun.bind .waitStatus (some (statusWord h.machine.blk).toNat)
    { h with machine := afterPoll h.master h.machine, taken := h.taken + 1 }

/-- A poll, as one move of a host at a WAIT. -/
theorem hostMove_wait {h : HostRun} {rest : List Pseudo} (hp : h.machine.cfg.wellFormed = true)
    (hprog : h.program = .wait :: rest) (ht : h.taken = 0) : h.hostMove = .next (h.polled.afterPass .wait) := by
  have hline : (expandPseudo h.machine.cfg.words .wait)[h.taken]? = some (.r 0x0004 .waitStatus) := by
    rw [ht]
    rfl
  have hstep := step_issue_read (s := h.machine) hp
    (accessReg_lineAccess (l := .r 0x0004 .waitStatus) (reg := .status) h.master hp rfl rfl)
  rw [hostMove_of_line hprog hline hstep, afterLine_last _ _ (by simp [expandPseudo])]
  rfl

/-- Settles O57: the poll binds the STATUS word, whose bit 0 decides whether the WAIT is over. -/
theorem waitPollsUntilIdle : Obligations.WaitPollsUntilIdle := by
  intro h rest hp hprog ht
  have hover : h.polled.waitOver = !isBusy h.machine.blk := waitOver_of_status (valueOf_bind_self _ _ _)
  refine ⟨_, hostMove_wait hp hprog ht, ?_⟩
  cases hs : h.machine.blk.seq with
  | busy =>
    simp only [HostRun.afterPass, hover, isBusy_of_busy hs]
    exact ⟨rfl, valueOf_bind_self _ _ _, rfl, rfl, fun _ => hprog, nofun⟩
  | idle =>
    simp only [HostRun.afterPass, hover, isBusy_of_idle hs]
    exact ⟨rfl, valueOf_bind_self _ _ _, rfl, rfl, nofun, fun _ => congrArg List.tail hprog⟩

/-- Polls of a busy block leave the host at its WAIT, and in the machine only the answers change. -/
theorem moves_polls {h : HostRun} {rest : List Pseudo} (polls : Nat) (hp : h.machine.cfg.wellFormed = true)
    (hb : h.machine.blk.seq = .busy) (hprog : h.program = .wait :: rest) (ht : h.taken = 0) :
    ∃ h', h.moves (List.replicate polls .host) = .next h' ∧ h'.program = .wait :: rest ∧ h'.taken = 0 ∧
      h'.master = h.master ∧ h'.machine = { h.machine with
        responses := List.replicate polls (h.master, .data (statusWord h.machine.blk)) ++ h.machine.responses } := by
  induction polls generalizing h with
  | zero => exact ⟨h, rfl, hprog, ht, rfl, rfl⟩
  | succ polls ih =>
    obtain ⟨h1, hmove, hmach, -, ht1, hmaster, hstay, -⟩ := waitPollsUntilIdle h rest hp hprog ht
    obtain ⟨h2, hmoves, hprog2, ht2, hmaster2, hmach2⟩ :=
      ih (h := h1) (by rw [hmach]; exact hp) (by rw [hmach]; exact hb) (hstay hb) ht1
    refine ⟨h2, ?_, hprog2, ht2, hmaster2.trans hmaster, ?_⟩
    · rw [List.replicate_succ, moves_cons (m := .host) hmove, hmoves]
    · rw [hmach2, hmach, hmaster, List.replicate_succ', List.append_assoc]
      rfl

/-- The completion after the end of the schedule, whatever was answered before it. -/
theorem step_completes_of_responses {s : State} (rs : List (Nat × Response)) (hp : s.cfg.wellFormed = true)
    (hb : s.blk.seq = .busy) (ht : s.turns = []) :
    step { s with responses := rs } = .next { complete (pendingResult s.blk) s with responses := rs } := by
  rw [step_completes (s := { s with responses := rs }) hp ⟨.inl ht, hb⟩,
    popTurn_of_nil (s := { s with responses := rs }) ht]
  rfl

/-- Settles O58: the polls leave the busy block as it was, so the completion after them leaves what it leaves without
them, and the next poll sees it. -/
theorem waitEndsAfterTheCompletion : Obligations.WaitEndsAfterTheCompletion := by
  intro h rest polls hp hb hturns hprog ht
  obtain ⟨h1, hpolls, hprog1, ht1, hmaster1, hmach1⟩ := moves_polls polls hp hb hprog ht
  have hcomplete := step_completes_of_responses h1.machine.responses hp hb hturns
  have hstep : step h1.machine = .next { complete (pendingResult h.machine.blk) h.machine with
      responses := h1.machine.responses } := by
    rw [← hcomplete, hmach1]
  obtain ⟨h2, hpoll, hmach2, hval, ht2, -, -, hend⟩ := waitPollsUntilIdle
    { h1 with machine := { complete (pendingResult h.machine.blk) h.machine with responses := h1.machine.responses } }
    rest hp hprog1 ht1
  refine ⟨_, step_completes_of_responses h.machine.responses hp hb hturns, by simp,
    ⟨h1, hpolls, hprog1, by rw [hmach1]⟩, h2, ?_, hend (by simp), ht2, by rw [hmach2], hval, ?_⟩
  · rw [moves_append hpolls, moves_cons (m := .machine) (machineMove_of_step hstep), moves_cons (m := .host) hpoll]
    rfl
  · rw [hmach2, hmaster1, hmach1]

/-! ### STORE -/

/-- The value of a result register. -/
def ResultReg.bank (y : ResultReg) (b : Block) : Bank :=
  match y with
  | .res0 => b.res0
  | .res1 => b.res1

theorem ResultReg.bank_length {words : Nat} {b : Block} (y : ResultReg) (h : Block.Wf words b) :
    (y.bank b).length = words := by
  cases y with
  | res0 => exact h.res0
  | res1 => exact h.res1

theorem readReg_wordReg (words : Nat) (b : Block) (y : ResultReg) (i : Nat) :
    readReg words b (y.wordReg i) = (y.bank b).getD i 0 := by cases y <;> rfl

/-- A host that has made the first `n` reads of a STORE, in a machine that is `s` but for the answers. -/
structure StoreProgress (s : State) (y : ResultReg) (x : String) (rest : List Pseudo) (n : Nat) (h : HostRun) :
    Prop where
  program : h.program = .store y x :: rest
  taken   : h.taken = n
  machine : ∃ rs, h.machine = { s with responses := rs }
  words   : ∀ i < n, h.valueOf (.storeWord i) = some ((y.bank s.blk).getD i 0).toNat

section

variable {s : State} {y : ResultReg} {x : String} {rest : List Pseudo} {n : Nat} {h : HostRun}

/-- The host that has taken in the answer to read `n` of a STORE of a register that holds `b`. -/
def HostRun.storeRead (b : Bank) (n : Nat) (h : HostRun) : HostRun :=
  HostRun.bind (.storeWord n) (some (b.getD n 0).toNat)
    { h with
      machine := { h.machine with responses := (h.master, .data (b.getD n 0)) :: h.machine.responses }
      taken := h.taken + 1 }

theorem StoreProgress.storeRead (hs : StoreProgress s y x rest n h) :
    StoreProgress s y x rest (n + 1) (h.storeRead (y.bank s.blk) n) where
  program := hs.program
  taken := congrArg (· + 1) hs.taken
  machine := by
    obtain ⟨rs, hm⟩ := hs.machine
    exact ⟨_, by rw [HostRun.storeRead, bind_machine, hm]⟩
  words i hi := by
    obtain rfl | hlt := Nat.eq_or_lt_of_le (Nat.le_of_lt_succ hi)
    · exact valueOf_bind_self _ _ _
    · have hne : HostVar.storeWord i ≠ .storeWord n := by simpa using hlt.ne
      exact (valueOf_bind_ne _ _ hne).trans (hs.words i hlt)

theorem StoreProgress.cfg (hs : StoreProgress s y x rest n h) : h.machine.cfg = s.cfg := by
  obtain ⟨rs, hm⟩ := hs.machine
  rw [hm]

/-- Read `n` of a STORE, as one move: after the last one the STORE binds its X. -/
theorem StoreProgress.hostMove (hs : StoreProgress s y x rest n h) (hp : s.cfg.wellFormed = true)
    (hn : n < s.cfg.words) :
    h.hostMove = .next (if n + 1 < s.cfg.words then h.storeRead (y.bank s.blk) n
      else (h.storeRead (y.bank s.blk) n).afterPass (.store y x)) := by
  have hcfg := hs.cfg
  have hline : (expandPseudo h.machine.cfg.words (.store y x))[h.taken]? =
      some (.r (bankOffset (resultBank y) n) (.storeWord n)) := by
    simp [expandPseudo, hcfg, hs.taken, hn]
  have hreg : accessReg h.machine.cfg _ = _ := accessReg_store h.master y (.storeWord n) (hcfg ▸ hp) (hcfg ▸ hn)
  have hword : readReg h.machine.cfg.words h.machine.blk (y.wordReg n) = (y.bank s.blk).getD n 0 := by
    obtain ⟨rs, hm⟩ := hs.machine
    rw [readReg_wordReg, hm]
  have hstep := step_issue_read (hcfg ▸ hp) hreg
  rw [hword] at hstep
  have hlen : (expandPseudo h.machine.cfg.words (.store y x)).length = s.cfg.words := by simp [expandPseudo, hcfg]
  rw [hostMove_of_line hs.program hline hstep]
  split
  next hmore =>
    rw [afterLine_more _ _ (by rw [hlen, hs.taken]; exact hmore)]
    rfl
  next hlast =>
    rw [afterLine_last _ _ (by rw [hlen, hs.taken]; exact Nat.not_lt.1 hlast)]
    rfl

/-- The reads of a STORE before its last. -/
theorem moves_store (hp : s.cfg.wellFormed = true) (hn : n < s.cfg.words) (hs : StoreProgress s y x rest 0 h) :
    ∃ h', h.moves (List.replicate n .host) = .next h' ∧ StoreProgress s y x rest n h' := by
  induction n with
  | zero => exact ⟨h, rfl, hs⟩
  | succ n ih =>
    obtain ⟨h', hmoves, hs'⟩ := ih (Nat.lt_of_succ_lt hn)
    refine ⟨_, ?_, hs'.storeRead⟩
    have hmove := hs'.hostMove hp (Nat.lt_of_succ_lt hn)
    rw [if_pos hn] at hmove
    rw [List.replicate_succ', moves_append hmoves, moves_cons (m := .host) hmove]
    rfl

/-- A host with every word read has the register's value for its X. -/
theorem StoreProgress.storeResult (hs : StoreProgress s y x rest s.cfg.words h) (hw : Block.Wf s.cfg.words s.blk) :
    h.storeResult s.cfg.words = some (val (y.bank s.blk)) := by
  have hlen := y.bank_length hw
  rw [← hlen]
  refine storeResult_of_words fun i hi => ?_
  rw [hs.words i (hlen ▸ hi), List.getD_eq_getElem _ _ hi]

end

/-- Settles O59: the reads before the last bind their words, and the last one also binds X and ends the line. -/
theorem storeBindsTheResult : Obligations.StoreBindsTheResult := by
  intro h rest y x hi hprog ht
  obtain ⟨hpos, -, -⟩ := wellFormed_bounds hi.params
  obtain ⟨n, hn⟩ := Nat.exists_eq_add_one.2 hpos
  have hstart : StoreProgress h.machine y x rest 0 h := ⟨hprog, ht, ⟨_, rfl⟩, nofun⟩
  obtain ⟨h1, hmoves, hs1⟩ := moves_store hi.params (n := n) (by omega) hstart
  have hmove := hs1.hostMove hi.params (by omega)
  rw [if_neg (by omega)] at hmove
  have hs2 : StoreProgress h.machine y x rest h.machine.cfg.words _ := hn ▸ hs1.storeRead
  obtain ⟨rs, hmach⟩ := hs2.machine
  refine ⟨(h1.storeRead (y.bank h.machine.blk) n).afterPass (.store y x), ?_, congrArg List.tail hs2.program, rfl,
    by simp [HostRun.afterPass, hmach], by simp [HostRun.afterPass, hmach], ?_⟩
  · rw [hn, List.replicate_succ', moves_append hmoves, moves_cons (m := .host) hmove]
    rfl
  · simp only [HostRun.afterPass, hs2.cfg, valueOf_advance, valueOf_bind_self, hs2.storeResult hi.widths]
    rfl

end Sys2Proof.Machine

/-! The sequencer (40_sequencer.md): the acceptance of a command word, the host accesses of a busy block, and the completion
with the frame it leaves to the host's reads. -/

namespace Sys2Proof.Machine

/-! ### Acceptance -/

/-- Settles O14: the write reaches CMD of an idle block, which accepts every word, and with DONE cleared IRQ falls. -/
theorem acceptanceOfAnyWord : Obligations.AcceptanceOfAnyWord := by
  intro s a rest v hp hn hk hw ha hi
  have hstep := step_write_reg hp hn (accessReg_of_reg (reg := .cmd) hp hw rfl ha) hk
  rw [writeReg_accepted hi] at hstep
  exact ⟨_, hstep, rfl, irq_eq_false_of_done rfl⟩

/-! ### Host accesses while busy -/

/-- A STATUS write clears DONE and OVR by bits 1 and 2 of the data (10_state.md R36). -/
theorem writeStatus_eq (v : Word) (b : Block) : writeStatus v b =
    { b with done := if v.getLsbD 1 then false else b.done, ovr := if v.getLsbD 2 then false else b.ovr } := by
  unfold writeStatus
  cases v.getLsbD 1 <;> cases v.getLsbD 2 <;> simp

/-- Settles O9: a write leaves what its register makes of it in a busy block, and a read only adds an answer. -/
theorem accessesWhileBusy : Obligations.AccessesWhileBusy := by
  intro s a rest reg v hp hn hr hs
  have hwrite := step_write_reg (v := v) hp hn hr
  refine ⟨fun hk hd => ?_, fun hk hreg => ?_, fun hk hreg => ?_, fun hk hreg => ?_,
    fun hk => ⟨_, step_read_reg hp hn hr hk⟩⟩
  · rw [hwrite hk, writeReg_dropped hd hs]
    rfl
  · rw [hwrite hk, hreg, ← writeStatus_eq]
    rfl
  · rw [hwrite hk, hreg]
    rfl
  · rw [hwrite hk]
    obtain rfl | ⟨i, rfl⟩ | ⟨i, rfl⟩ := hreg <;> rfl

/-! ### Completion -/

/-- Settles O15: the completion step completes with the pending word's result, and so does `exec` of its instruction. -/
theorem completionRunsThePendingCommand : Obligations.CompletionRunsThePendingCommand := by
  intro s i hp hc hd
  rw [step_completes hp hc, pendingResult_of_ok hd]
  exact (exec_eq i (popTurn s)).symm

/-- A register that the completion frame covers reads as before: all but STATUS and the results (R143). -/
theorem CompletionFrame.readReg_eq {s t : State} (hf : CompletionFrame s t) {reg : Reg} (hstatus : reg ≠ .status)
    (hres0 : ∀ k, reg ≠ .res0 k) (hres1 : ∀ k, reg ≠ .res1 k) :
    readReg t.cfg.words t.blk reg = readReg s.cfg.words s.blk reg := by
  cases reg with
  | cmd => exact hf.cmdLast
  | config => exact congrArg (fun p : Params => configWord p.words) hf.cfg
  | irqen => simp [readReg, irqenWord, hf.doneIE]
  | opa => simp [readReg, hf.opa]
  | opb => simp [readReg, hf.opb]
  | opc => simp [readReg, hf.opc]
  | status => exact absurd rfl hstatus
  | res0 k => exact absurd rfl (hres0 k)
  | res1 k => exact absurd rfl (hres1 k)

/-- Only DIVMOD assigns RES1 (10_state.md R34). -/
theorem commit_resultOf_res1 {i : Instr} (h : i ≠ .divmod) (b : Block) : (commit (resultOf i b) b).res1 = b.res1 := by
  cases i with
  | add | sub | mul => rfl
  | divmod => exact absurd rfl h
  | modexp =>
    rw [resultOf, modexpResult]
    split <;> rfl

/-- Settles O45: every command ends in a completion, whose frame covers the registers read, and RES1 unless it is DIVMOD. -/
theorem commandsLeaveOtherRegisters : Obligations.CommandsLeaveOtherRegisters := by
  intro i s
  have hframe := complete_frame (resultOf i s.blk) s
  exact ⟨_, exec_eq i s, hframe, fun _ => hframe.readReg_eq, fun hi k => by simp [readReg, commit_resultOf_res1 hi]⟩

end Sys2Proof.Machine

/-! The datapath (41_primitives.md): each word-level function is the arithmetic of the values of its registers. -/

namespace Sys2Proof.Machine

/-! ### Registers as numbers modulo 2^N -/

theorem ofVal_inj {n v w : Nat} : ofVal n v = ofVal n w ↔ v % 2 ^ (32 * n) = w % 2 ^ (32 * n) := by
  rw [← val_ofVal n v, ← val_ofVal n w]
  exact ⟨congrArg val, val_injective _ _ (by simp)⟩

theorem ofVal_mod (n v : Nat) : ofVal n (v % 2 ^ (32 * n)) = ofVal n v := ofVal_inj.2 (Nat.mod_mod _ _)

theorem ofVal_add_mod (n u v : Nat) : ofVal n (u + v % 2 ^ (32 * n)) = ofVal n (u + v) := ofVal_inj.2 (by simp)

/-- One step of a ripple: the low word of `t` stays, and the rest of `t` goes on into the words above it. -/
theorem ofVal_succ_carry (n t x : Nat) :
    BitVec.ofNat 32 t :: ofVal n (x + t / 2 ^ 32) = ofVal (n + 1) (t + 2 ^ 32 * x) := by
  have hlow : BitVec.ofNat 32 (t + 2 ^ 32 * x) = BitVec.ofNat 32 t := BitVec.eq_of_toNat_eq (by simp)
  rw [ofVal_succ, hlow, Nat.add_mul_div_left _ _ (Nat.two_pow_pos 32), Nat.add_comm x]

/-! ### Comparisons (R170, R171, R174) -/

theorem cmpw_cons (x y : Word) (xs ys : Bank) :
    cmpw (x :: xs) (y :: ys) = (cmpw xs ys).then (compare x.toNat y.toNat) := by
  rw [cmpw]
  cases cmpw xs ys <;> rfl

/-- The high words decide, and the low words only where the high ones are equal. -/
theorem cmpw_append {lowA lowB : Bank} (highA highB : Bank) (h : lowA.length = lowB.length) :
    cmpw (lowA ++ highA) (lowB ++ highB) = (cmpw highA highB).then (cmpw lowA lowB) := by
  induction lowA generalizing lowB with
  | nil =>
    obtain rfl := List.eq_nil_of_length_eq_zero h.symm
    simp [cmpw]
  | cons x xs ih =>
    obtain ⟨y, ys, rfl⟩ := List.exists_cons_of_length_eq_add_one h.symm
    rw [List.cons_append, List.cons_append, cmpw_cons, cmpw_cons, ih (Nat.succ.inj h), Ordering.then_assoc]

/-- The order of two registers is that of their values above the lowest words, and of the lowest words where those are
equal. -/
theorem compare_val_cons (x y : Word) (xs ys : Bank) :
    compare (val (x :: xs)) (val (y :: ys)) = (compare (val xs) (val ys)).then (compare x.toNat y.toNat) := by
  have hx := x.isLt
  have hy := y.isLt
  rw [val_cons, val_cons]
  obtain hlt | heq | hgt := lt_trichotomy (val xs) (val ys)
  · rw [Nat.compare_eq_lt.2 hlt, Ordering.lt_then, Nat.compare_eq_lt]
    omega
  · rw [heq, Nat.compare_eq_eq.2 rfl, Ordering.eq_then]
    simp only [Nat.compare_eq_ite_lt, Nat.add_lt_add_iff_right]
  · rw [Nat.compare_eq_gt.2 hgt, Ordering.gt_then, Nat.compare_eq_gt]
    omega

/-- The word by word comparison compares the values. -/
theorem cmpw_eq_compare {a b : Bank} (h : a.length = b.length) : cmpw a b = compare (val a) (val b) := by
  induction a generalizing b with
  | nil =>
    obtain rfl := List.eq_nil_of_length_eq_zero h.symm
    rfl
  | cons x xs ih =>
    obtain ⟨y, ys, rfl⟩ := List.exists_cons_of_length_eq_add_one h.symm
    rw [cmpw_cons, ih (Nat.succ.inj h), compare_val_cons]

theorem eqw_iff {a b : Bank} (h : a.length = b.length) : eqw a b = true ↔ val a = val b := by
  rw [eqw, decide_eq_true_iff]
  exact ⟨congrArg val, val_injective a b h⟩

theorem eqw_iff_words {a b : Bank} (h : a.length = b.length) :
    eqw a b = true ↔ ∀ i < a.length, a[i]? = b[i]? := by
  rw [eqw, decide_eq_true_iff]
  refine ⟨fun heq _ _ => heq ▸ rfl, fun hw => List.ext_getElem? fun i => ?_⟩
  obtain hi | hi := lt_or_ge i a.length
  · exact hw i hi
  · rw [List.getElem?_eq_none hi, List.getElem?_eq_none (h ▸ hi)]

theorem neqw_iff {a b : Bank} (h : a.length = b.length) : neqw a b = true ↔ val a ≠ val b := by
  rw [neqw, Bool.not_eq_true', ← Bool.not_eq_true, eqw_iff h]

theorem ltw_iff {a b : Bank} (h : a.length = b.length) : ltw a b = true ↔ val a < val b := by
  rw [ltw, beq_iff_eq, cmpw_eq_compare h, Nat.compare_eq_lt]

theorem oddw_iff (a : Bank) : oddw a = true ↔ val a % 2 = 1 := by
  cases a with
  | nil => simp [oddw]
  | cons w ws =>
    have hpar : val (w :: ws) % 2 = w.toNat % 2 := by rw [val_cons]; omega
    rw [oddw, hpar, BitVec.getLsbD, Nat.testBit_zero, decide_eq_true_iff]

theorem evenw_iff (a : Bank) : evenw a = true ↔ val a % 2 = 0 := by
  rw [evenw, Bool.not_eq_true', ← Bool.not_eq_true, oddw_iff, Nat.mod_two_not_eq_one]

theorem cmpw_self (a : Bank) : cmpw a a = .eq := by rw [cmpw_eq_compare rfl, Nat.compare_eq_eq.2 rfl]

/-- Below equal high words, the most significant words that differ decide. -/
theorem cmpw_of_ne {lowA lowB : Bank} (high : Bank) {x y : Word} (h : lowA.length = lowB.length)
    (hne : x.toNat ≠ y.toNat) : cmpw (lowA ++ x :: high) (lowB ++ y :: high) = compare x.toNat y.toNat := by
  rw [cmpw_append _ _ h, cmpw_cons, cmpw_self, Ordering.eq_then]
  obtain hlt | hgt := Nat.lt_or_gt_of_ne hne
  · rw [Nat.compare_eq_lt.2 hlt, Ordering.lt_then]
  · rw [Nat.compare_eq_gt.2 hgt, Ordering.gt_then]

/-- Settles O46: the word by word comparisons are those of the values, and the most significant differing word decides. -/
theorem comparisonsAreNumeric : Obligations.ComparisonsAreNumeric := by
  refine ⟨fun a b h => ⟨eqw_iff_words h, eqw_iff h, neqw_iff h, ltw_iff h, ltw_iff h.symm, oddw_iff a, evenw_iff a⟩,
    fun lowA lowB high x y h => ⟨fun hlt => ?_, fun hgt => ?_, ?_⟩⟩
  · rw [ltw, cmpw_of_ne high h hlt.ne, Nat.compare_eq_lt.2 hlt]
    rfl
  · rw [ltw, cmpw_of_ne high h hgt.ne', Nat.compare_eq_gt.2 hgt]
    rfl
  · rw [ltw, cmpw_self]
    rfl

/-! ### Bit metrics (R172, R173) -/

theorem toNat_ne_zero {x : Word} (hx : x ≠ 0) : x.toNat ≠ 0 := fun h => hx (BitVec.eq_of_toNat_eq h)

theorem clz32_le (x : Word) : clz32 x ≤ 31 := Nat.sub_le 31 _

/-- The leading zeros of a word end at its highest 1 bit. -/
theorem sub_clz32 {x : Word} (hx : x ≠ 0) : 31 - clz32 x = x.toNat.log2 := by
  have hlog : x.toNat.log2 < 32 := (Nat.log2_lt (toNat_ne_zero hx)).2 x.isLt
  rw [clz32]
  omega

theorem bitlen_cons_of_above {ws : Bank} (w : Word) (h : bitlen ws ≠ 0) : bitlen (w :: ws) = bitlen ws + 32 := by
  rw [bitlen, if_pos h]

theorem bitlen_cons_of_top {w : Word} {ws : Bank} (h : bitlen ws = 0) (hw : w ≠ 0) :
    bitlen (w :: ws) = 32 - clz32 w := by
  rw [bitlen, if_neg (not_not.2 h), if_pos hw]

theorem bitlen_cons_zero {ws : Bank} (h : bitlen ws = 0) : bitlen (0 :: ws) = 0 := by
  rw [bitlen, if_neg (not_not.2 h), if_neg (not_not.2 rfl)]

theorem top_bits_le_iff {w : Word} (hw : w ≠ 0) (k : Nat) : 32 - clz32 w ≤ k ↔ w.toNat < 2 ^ k := by
  have hclz := clz32_le w
  rw [← Nat.log2_lt (toNat_ne_zero hw), ← sub_clz32 hw]
  omega

/-- BITLEN is the least number of bits that hold the value. -/
theorem bitlen_le_iff (a : Bank) (k : Nat) : bitlen a ≤ k ↔ val a < 2 ^ k := by
  induction a generalizing k with
  | nil => simp [bitlen]
  | cons w ws ih =>
    have hzero : bitlen ws = 0 ↔ val ws = 0 := by simpa using ih 0
    rw [val_cons]
    by_cases habove : bitlen ws = 0
    · rw [hzero.1 habove, Nat.mul_zero, Nat.add_zero]
      by_cases hw : w = 0
      · rw [hw, bitlen_cons_zero habove]
        simp
      · rw [bitlen_cons_of_top habove hw, top_bits_le_iff hw]
    · have hpos : val ws ≠ 0 := mt hzero.2 habove
      rw [bitlen_cons_of_above w habove]
      obtain hk | hk := lt_or_ge k 32
      · have hpow : 2 ^ k ≤ 2 ^ 32 := Nat.pow_le_pow_right two_pos hk.le
        omega
      · obtain ⟨j, rfl⟩ := Nat.exists_eq_add_of_le hk
        have hw := w.isLt
        have hj := ih j
        rw [Nat.pow_add]
        omega

theorem bitlen_eq_zero {a : Bank} (h : ∀ y ∈ a, y = 0) : bitlen a = 0 := by
  induction a with
  | nil => rfl
  | cons w ws ih =>
    obtain ⟨rfl, hws⟩ := List.forall_mem_cons.1 h
    exact bitlen_cons_zero (ih hws)

/-- BITLEN looks for the first nonzero word from the top. -/
theorem bitlen_append_of_top (low : Bank) {x : Word} {high : Bank} (hx : x ≠ 0) (hhigh : ∀ y ∈ high, y = 0) :
    bitlen (low ++ x :: high) = low.length * 32 + (32 - clz32 x) := by
  have hclz := clz32_le x
  induction low with
  | nil =>
    rw [List.nil_append, bitlen_cons_of_top (bitlen_eq_zero hhigh) hx, List.length_nil, Nat.zero_mul, Nat.zero_add]
  | cons w ws ih =>
    rw [List.cons_append, bitlen_cons_of_above w (by omega), ih, List.length_cons]
    omega

/-- Settles O47: BITLEN by induction on the words, clz32 by the logarithm of the word. -/
theorem bitLengthIsLeastBound : Obligations.BitLengthIsLeastBound := by
  refine ⟨bitlen_le_iff, fun x hx => ?_, fun low high x hx hhigh => bitlen_append_of_top low hx hhigh⟩
  rw [sub_clz32 hx]
  refine ⟨clz32_le x, Nat.testBit_log2 (toNat_ne_zero hx), fun j hj => Nat.testBit_lt_two_pow ?_⟩
  exact (Nat.log2_lt (toNat_ne_zero hx)).1 hj

/-! ### Shifts (R175, R176) -/

theorem mul_two_pow_mod_of_le {n k : Nat} (v : Nat) (h : n ≤ k) : v * 2 ^ k % 2 ^ n = 0 :=
  Nat.mod_eq_zero_of_dvd ((Nat.pow_dvd_pow 2 h).mul_left v)

theorem val_div_two_pow_of_le {a : Bank} {k : Nat} (h : 32 * a.length ≤ k) : val a / 2 ^ k = 0 :=
  Nat.div_eq_of_lt ((val_lt a).trans_le (Nat.pow_le_pow_right two_pos h))

/-- The case of a count of N or more, which R175 sets apart, fits the formula. -/
theorem shl_eq_ofVal (a : Bank) (k : Nat) : shl a k = ofVal a.length (val a * 2 ^ k) := by
  rw [shl, bits]
  split
  case isTrue h => rw [ofVal_inj, Nat.zero_mod, mul_two_pow_mod_of_le _ h]
  case isFalse => rw [ofVal_mod]

/-- The case of a count of N or more, which R176 sets apart, fits the formula. -/
theorem shr_eq_ofVal (a : Bank) (k : Nat) : shr a k = ofVal a.length (val a / 2 ^ k) := by
  rw [shr, bits]
  split
  case isTrue h => rw [val_div_two_pow_of_le h]
  case isFalse => rfl

theorem val_shl (a : Bank) (k : Nat) : val (shl a k) = val a * 2 ^ k % 2 ^ (32 * a.length) := by
  rw [shl_eq_ofVal, val_ofVal]

theorem val_shr (a : Bank) (k : Nat) : val (shr a k) = val a / 2 ^ k := by
  rw [shr_eq_ofVal, val_ofVal, Nat.mod_eq_of_lt ((Nat.div_le_self _ _).trans_lt (val_lt a))]

/-- A word of a register is a digit of its value, and 0 past the top word. -/
theorem getD_toNat (a : Bank) (i : Nat) : (a.getD i 0).toNat = val a / 2 ^ (32 * i) % 2 ^ 32 := by
  obtain hi | hi := lt_or_ge i a.length
  · nth_rw 1 [← ofVal_val a]
    simp [ofVal, hi, word]
  · simp [hi, val_div_two_pow_of_le (Nat.mul_le_mul_left 32 hi)]

theorem wordOrZero_natCast (a : Bank) (i : Nat) : wordOrZero a i = val a / 2 ^ (32 * i) % 2 ^ 32 := by
  rw [← getD_toNat, wordOrZero]
  obtain hi | hi := lt_or_ge i a.length
  · simp [hi]
  · simp [hi.not_gt]

/-- Word `i` of a register moved up by `q` words. -/
theorem wordOrZero_sub (a : Bank) (i q : Nat) :
    wordOrZero a ((i : Int) - q) = val a * 2 ^ (32 * q) / 2 ^ (32 * i) % 2 ^ 32 := by
  obtain hlt | hge := lt_or_ge i q
  · obtain ⟨m, rfl⟩ := Nat.exists_eq_add_of_lt hlt
    have hpow : val a * 2 ^ (32 * (i + m + 1)) = 2 ^ (32 * i) * (2 ^ 32 * (val a * 2 ^ (32 * m))) := by ring
    rw [hpow, Nat.mul_div_cancel_left _ (Nat.two_pow_pos _), Nat.mul_mod_right, wordOrZero, if_neg (by omega)]
  · obtain ⟨j, rfl⟩ := Nat.exists_eq_add_of_le hge
    have hindex : ((q + j : Nat) : Int) - q = j := by omega
    rw [hindex, wordOrZero_natCast, Nat.mul_add, Nat.pow_add, Nat.mul_comm (val a),
      Nat.mul_div_mul_left _ _ (Nat.two_pow_pos _)]

/-- The word above the low `s` bits of a number, from its two lowest words: the first without its low `s` bits, and the
low `s` bits of the second above them. -/
theorem ofNat_div_two_pow (u : Nat) {s : Nat} (hs : s ≤ 32) :
    BitVec.ofNat 32 (u / 2 ^ s) =
      BitVec.ofNat 32 (u % 2 ^ 32 / 2 ^ s + u / 2 ^ 32 % 2 ^ 32 * 2 ^ (32 - s) % 2 ^ 32) := by
  have hpow : 2 ^ 32 = 2 ^ s * 2 ^ (32 - s) := by rw [← Nat.pow_add, Nat.add_sub_cancel' hs]
  have hdiv : u / 2 ^ s = u % 2 ^ 32 / 2 ^ s + u / 2 ^ 32 * 2 ^ (32 - s) := by
    nth_rw 1 [← Nat.mod_add_div u (2 ^ 32)]
    nth_rw 2 [hpow]
    rw [Nat.mul_assoc, Nat.add_mul_div_left _ _ (Nat.two_pow_pos s), Nat.mul_comm (2 ^ (32 - s))]
  apply BitVec.eq_of_toNat_eq
  rw [hdiv, BitVec.toNat_ofNat, BitVec.toNat_ofNat, Nat.add_mod_mod, ← Nat.add_mod_mod, ← Nat.mod_mul_mod,
    Nat.add_mod_mod]

/-- Without a shift by bits no bits of the word below enter, so the case that R175 sets apart fits the formula. -/
theorem ite_div_two_pow {lo : Nat} (hlo : lo < 2 ^ 32) (s : Nat) :
    (if s = 0 then 0 else lo / 2 ^ (32 - s)) = lo / 2 ^ (32 - s) := by
  split
  case isTrue h => rw [h, Nat.div_eq_of_lt hlo]
  case isFalse => rfl

/-- Without a shift by bits no bits of the word above enter, so the case that R176 sets apart fits the formula. -/
theorem ite_mul_two_pow (hi s : Nat) :
    (if s = 0 then 0 else hi * 2 ^ (32 - s) % 2 ^ 32) = hi * 2 ^ (32 - s) % 2 ^ 32 := by
  split
  case isTrue h => rw [h, Nat.mul_mod_left]
  case isFalse => rfl

/-- Word `i` of the register shifted up by `q` words and `s` bits, from the two words that meet in it. -/
theorem word_shl (a : Bank) (i q : Nat) {s : Nat} (hs : s < 32) :
    word (val a * 2 ^ (32 * q + s)) i =
      BitVec.ofNat 32 (wordOrZero a ((i : Int) - q) * 2 ^ s % 2 ^ 32 +
        if s = 0 then 0 else wordOrZero a ((i : Int) - q - 1) / 2 ^ (32 - s)) := by
  have hbits : val a * 2 ^ (32 * q + s) / 2 ^ (32 * i) =
      val a * 2 ^ (32 * (q + 1)) / 2 ^ (32 * i) / 2 ^ (32 - s) := by
    have hexp : 32 * (q + 1) = 32 * q + s + (32 - s) := by omega
    rw [Nat.div_div_eq_div_mul, hexp, Nat.pow_add _ _ (32 - s), ← Nat.mul_assoc,
      Nat.mul_div_mul_right _ _ (Nat.two_pow_pos _)]
  have hhigh : val a * 2 ^ (32 * (q + 1)) / 2 ^ (32 * i) / 2 ^ 32 = val a * 2 ^ (32 * q) / 2 ^ (32 * i) := by
    rw [Nat.div_div_eq_div_mul, Nat.mul_succ, Nat.pow_add, ← Nat.mul_assoc,
      Nat.mul_div_mul_right _ _ (Nat.two_pow_pos _)]
  have hbelow : (i : Int) - q - 1 = i - (q + 1 : Nat) := by omega
  rw [hbelow, wordOrZero_sub, wordOrZero_sub, ite_div_two_pow (Nat.mod_lt _ (Nat.two_pow_pos 32)), word, hbits,
    ofNat_div_two_pow _ (Nat.sub_le 32 s), hhigh, Nat.sub_sub_self hs.le, Nat.add_comm]

/-- Word `i` of the register shifted down by `q` words and `s` bits, from the two words that meet in it. -/
theorem word_shr (a : Bank) (i q : Nat) {s : Nat} (hs : s < 32) :
    word (val a / 2 ^ (32 * q + s)) i =
      BitVec.ofNat 32 (wordOrZero a ((i : Int) + q) / 2 ^ s +
        if s = 0 then 0 else wordOrZero a ((i : Int) + q + 1) * 2 ^ (32 - s) % 2 ^ 32) := by
  have hbits : val a / 2 ^ (32 * q + s) / 2 ^ (32 * i) = val a / 2 ^ (32 * (i + q)) / 2 ^ s := by
    rw [Nat.div_div_eq_div_mul, Nat.div_div_eq_div_mul, ← Nat.pow_add, ← Nat.pow_add]
    ring_nf
  have hhigh : val a / 2 ^ (32 * (i + q)) / 2 ^ 32 = val a / 2 ^ (32 * (i + q + 1)) := by
    rw [Nat.div_div_eq_div_mul, ← Nat.pow_add, Nat.mul_succ]
  have hlo : wordOrZero a ((i : Int) + q) = _ := wordOrZero_natCast a (i + q)
  have hhi : wordOrZero a ((i : Int) + q + 1) = _ := wordOrZero_natCast a (i + q + 1)
  rw [hlo, hhi, ite_mul_two_pow, word, hbits, ofNat_div_two_pow _ hs.le, hhigh]

theorem shlWords_eq_shl (a : Bank) (k : Nat) : shlWords a k = shl a k := by
  rw [shl_eq_ofVal]
  refine List.map_congr_left fun i _ => ?_
  have hword := word_shl a i (k / 32) (Nat.mod_lt k (by decide : 0 < 32))
  rw [Nat.div_add_mod] at hword
  exact hword.symm

theorem shrWords_eq_shr (a : Bank) (k : Nat) : shrWords a k = shr a k := by
  rw [shr_eq_ofVal]
  refine List.map_congr_left fun i _ => ?_
  have hword := word_shr a i (k / 32) (Nat.mod_lt k (by decide : 0 < 32))
  rw [Nat.div_add_mod] at hword
  exact hword.symm

/-- Settles O48: both shifts are truncated arithmetic, and their word-level forms give the same words. -/
theorem shiftsAsNumbersAndByWords : Obligations.ShiftsAsNumbersAndByWords := by
  intro a k
  refine ⟨?_, ?_, shlWords_eq_shl a k, shrWords_eq_shr a k⟩
  · rw [val_shl]
    split
    case isTrue h => exact mul_two_pow_mod_of_le _ h
    case isFalse => rfl
  · rw [val_shr]
    split
    case isTrue h => exact val_div_two_pow_of_le h
    case isFalse => rfl

/-! ### Addition and subtraction (R177, R178) -/

/-- The ripple carry adder is addition. -/
theorem addRipple_eq_ofVal {a b : Bank} (h : a.length = b.length) (carry : Nat) :
    addRipple a b carry = ofVal a.length (val a + val b + carry) := by
  induction a generalizing b carry with
  | nil => rfl
  | cons x xs ih =>
    obtain ⟨y, ys, rfl⟩ := List.exists_cons_of_length_eq_add_one h.symm
    rw [addRipple, ih (Nat.succ.inj h), ofVal_succ_carry, List.length_cons, val_cons, val_cons]
    ring_nf

theorem addw_eq_ofVal {a b : Bank} (h : a.length = b.length) : addw a b = ofVal a.length (val a + val b) :=
  addRipple_eq_ofVal h 0

/-- One step of the ripple borrow: `2^32` is added to a word exactly when the next word pays it back. -/
theorem subRipple_cons (x y : Word) (xs ys : Bank) {borrow : Nat} (hb : borrow ≤ 1) :
    ∃ (d : Word) (next : Nat), subRipple (x :: xs) (y :: ys) borrow = d :: subRipple xs ys next ∧ next ≤ 1 ∧
      d.toNat + y.toNat + borrow = x.toNat + 2 ^ 32 * next := by
  have hx := x.isLt
  have hy := y.isLt
  simp only [subRipple]
  split
  · exact ⟨_, 1, rfl, le_rfl, by rw [BitVec.toNat_ofNat]; omega⟩
  · exact ⟨_, 0, rfl, Nat.zero_le 1, by rw [BitVec.toNat_ofNat]; omega⟩

/-- Ripple carry undoes ripple borrow: the carry into each word is the borrow that was taken from it. -/
theorem addRipple_subRipple {a b : Bank} (h : a.length = b.length) {borrow : Nat} (hb : borrow ≤ 1) :
    addRipple (subRipple a b borrow) b borrow = a := by
  induction a generalizing b borrow with
  | nil => rfl
  | cons x xs ih =>
    obtain ⟨y, ys, rfl⟩ := List.exists_cons_of_length_eq_add_one h.symm
    obtain ⟨d, next, hsub, hnext, hd⟩ := subRipple_cons x y xs ys hb
    have hword : BitVec.ofNat 32 (x.toNat + 2 ^ 32 * next) = x := BitVec.eq_of_toNat_eq (by simpa using x.isLt)
    have hcarry : (x.toNat + 2 ^ 32 * next) / 2 ^ 32 = next := by omega
    rw [hsub, addRipple, hd, hword, hcarry, ih (Nat.succ.inj h) hnext]

theorem addw_subw {a b : Bank} (h : a.length = b.length) : addw (subw a b) b = a :=
  addRipple_subRipple h (Nat.zero_le 1)

/-- A difference and what was subtracted make the minuend, or wrap around it once. -/
theorem val_subw_add {a b : Bank} (h : a.length = b.length) :
    val (subw a b) + val b = val a ∨ val (subw a b) + val b = val a + 2 ^ (32 * a.length) := by
  have hlen : (subw a b).length = a.length := by simp [subw_length, h]
  have hd := hlen ▸ val_lt (subw a b)
  have hb := h ▸ val_lt b
  have hsum : (val (subw a b) + val b) % 2 ^ (32 * a.length) = val a := by
    rw [← val_ofVal, ← hlen, ← addw_eq_ofVal (hlen.trans h), addw_subw h]
  obtain hlt | hge := lt_or_ge (val (subw a b) + val b) (2 ^ (32 * a.length))
  · exact .inl (by rwa [Nat.mod_eq_of_lt hlt] at hsum)
  · rw [Nat.mod_eq_sub_mod hge, Nat.mod_eq_of_lt (by omega)] at hsum
    exact .inr (by omega)

/-- Settles O49: the sum wraps modulo 2^N, and the difference wraps exactly when it would be negative. -/
theorem addAndSubtractModulo : Obligations.AddAndSubtractModulo := by
  intro a b h
  have ha := val_lt a
  have hd := val_lt (subw a b)
  rw [subw_length, ← h, Nat.min_self] at hd
  have hsub := val_subw_add h
  exact ⟨by rw [addw_eq_ofVal h, val_ofVal], fun hle => by omega, fun hlt => by omega⟩

/-! ### Multiplication (R179) -/

/-- A row of the multiplier adds `x * b` to the accumulator words it reaches. -/
theorem mulRow_eq_ofVal (x : Word) {b acc : Bank} (h : acc.length ≤ b.length) (carry : Nat) :
    mulRow x b acc carry = ofVal acc.length (x.toNat * val b + val acc + carry) := by
  induction acc generalizing b carry with
  | nil => cases b <;> rfl
  | cons r rs ih =>
    cases b with
    | nil => simp at h
    | cons y ys =>
      rw [mulRow, ih (Nat.le_of_succ_le_succ h), ofVal_succ_carry, List.length_cons, val_cons, val_cons]
      ring_nf

/-- The rows of the multiplier add `a * b` to the accumulator: the row of each word leaves the lowest accumulator word
final, and the rows above it add to the rest. -/
theorem mulRows_eq_ofVal (a : Bank) {b acc : Bank} (h : acc.length ≤ b.length) :
    mulRows a b acc = ofVal acc.length (val a * val b + val acc) := by
  induction a generalizing acc with
  | nil => rw [mulRows, val_nil, Nat.zero_mul, Nat.zero_add, ofVal_val]
  | cons x xs ih =>
    rw [mulRows, mulRow_eq_ofVal x h, Nat.add_zero]
    cases acc with
    | nil => rfl
    | cons r rs =>
      have hrest : rs.length ≤ b.length := Nat.le_of_succ_le h
      rw [List.length_cons, ofVal_succ]
      dsimp only
      rw [ih (by simpa using hrest), ofVal_length, val_ofVal, ofVal_add_mod, ofVal_succ_carry, val_cons x]
      ring_nf

theorem mulw_eq_ofVal {a b : Bank} (h : a.length = b.length) : mulw a b = ofVal a.length (val a * val b) := by
  rw [mulw, mulRows_eq_ofVal a (by simp [h]), zeroBank_length, val_zeroBank, Nat.add_zero]

/-- Settles O50: the rows of the multiplier accumulate the product from words of zeros, as far as there are words. -/
theorem multiplyModulo : Obligations.MultiplyModulo := fun a b h =>
  ⟨mulw_length a b, by rw [mulw_eq_ofVal h, val_ofVal]⟩

/-! ### Laws (R180) -/

theorem addw_comm {a b : Bank} (h : a.length = b.length) : addw a b = addw b a := by
  rw [addw_eq_ofVal h, addw_eq_ofVal h.symm, h, Nat.add_comm]

theorem addw_assoc {a b c : Bank} (hab : a.length = b.length) (hac : a.length = c.length) :
    addw (addw a b) c = addw a (addw b c) := by
  have hbc := hab.symm.trans hac
  rw [addw_eq_ofVal hab, addw_eq_ofVal hbc, addw_eq_ofVal (by simp [hac]), addw_eq_ofVal (by simp [hab])]
  rw [ofVal_length, val_ofVal, val_ofVal, ← hab, ofVal_add_mod, Nat.add_comm, ofVal_add_mod]
  ring_nf

theorem mulw_comm {a b : Bank} (h : a.length = b.length) : mulw a b = mulw b a := by
  rw [mulw_eq_ofVal h, mulw_eq_ofVal h.symm, h, Nat.mul_comm]

theorem mulw_ofVal (a : Bank) (v : Nat) : mulw a (ofVal a.length v) = ofVal a.length (val a * v) := by
  rw [mulw_eq_ofVal (by simp), val_ofVal, ofVal_inj, Nat.mul_mod_mod]

/-- Settles O51: the laws of arithmetic modulo 2^N, and that ripple carry undoes ripple borrow. -/
theorem wordLevelLaws : Obligations.WordLevelLaws := by
  intro a b c hab hac
  have hzero : (ofVal a.length 0).length = a.length := ofVal_length _ _
  refine ⟨addw_comm hab, addw_assoc hab hac, ?_, addw_subw hab, mulw_comm hab, ?_, ?_⟩
  · rw [addw_comm (by simp [subw_length]), addw_subw hzero]
  · rw [mulw_ofVal, Nat.mul_one, ofVal_val]
  · rw [mulw_ofVal, Nat.mul_zero]

end Sys2Proof.Machine

/-! ADD, SUB and MUL (42_add_sub_mul.md): each command completes with code 0 and writes RES0 with the sum, the difference or
the product modulo 2^N; the corner cases of R201, R204 and R207 are arithmetic on that. -/

namespace Sys2Proof.Machine

/-! ### A command with one result -/

theorem Block.Wf.opa_length_eq_opb {words : Nat} {b : Block} (h : Block.Wf words b) : b.opa.length = b.opb.length :=
  h.opa.trans h.opb.symm

/-- A command that ends with one result completes with code 0, writes it to RES0 and leaves RES1 (10_state.md R34). -/
theorem exec_of_resultRes0 {i : Instr} {s : State} {x : Bank} (h : resultOf i s.blk = resultRes0 x) :
    ∃ t, exec i s = .next t ∧ CompletedWith 0 s t ∧ t.blk.res0 = x ∧ t.blk.res1 = s.blk.res1 := by
  rw [exec_eq, h]
  exact ⟨_, rfl, complete_ok _ _ s, rfl, rfl⟩

/-- The difference as an integer modulo 2^N (41_primitives.md R178). -/
theorem val_subw {a b : Bank} (h : a.length = b.length) :
    (val (subw a b) : Int) = ((val a : Int) - val b) % 2 ^ (32 * a.length) := by
  have hlt : (val (subw a b) : Int) < 2 ^ (32 * a.length) := by
    have := val_lt (subw a b)
    rw [subw_length, ← h, Nat.min_self] at this
    exact_mod_cast this
  rw [← Int.emod_eq_of_lt (Int.natCast_nonneg _) hlt]
  obtain hsum | hsum := val_subw_add h
  · rw [← hsum, Nat.cast_add, Int.add_sub_cancel]
  · have hwrap : (val (subw a b) : Int) = val a - val b + 2 ^ (32 * a.length) := by
      zify at hsum
      omega
    rw [hwrap, Int.add_emod_right]

/-- Settles O33: the command ends with the one result ADDW, which is the sum of the registers modulo 2^N. -/
theorem addCommand : Obligations.AddCommand := by
  refine ⟨rfl, fun s hw => ?_⟩
  obtain ⟨t, ht, hc, h0, h1⟩ := exec_of_resultRes0 (i := .add) (s := s) rfl
  exact ⟨t, ht, hc, h0, h1, by rw [h0, addw_eq_ofVal hw.opa_length_eq_opb, val_ofVal, hw.opa]⟩

/-- Settles O34: the command ends with the one result SUBW, which is the difference of the registers modulo 2^N. -/
theorem subCommand : Obligations.SubCommand := by
  refine ⟨rfl, fun s hw => ?_⟩
  obtain ⟨t, ht, hc, h0, h1⟩ := exec_of_resultRes0 (i := .sub) (s := s) rfl
  exact ⟨t, ht, hc, h0, h1, by rw [h0, val_subw hw.opa_length_eq_opb, hw.opa]⟩

/-- Settles O35: the command ends with the one result MULW, which is the product of the registers modulo 2^N. -/
theorem mulCommand : Obligations.MulCommand := by
  refine ⟨rfl, fun s hw => ?_⟩
  obtain ⟨t, ht, hc, h0, h1⟩ := exec_of_resultRes0 (i := .mul) (s := s) rfl
  exact ⟨t, ht, hc, h0, h1, by rw [h0, mulw_eq_ofVal hw.opa_length_eq_opb, val_ofVal, hw.opa]⟩

/-! ### Corner cases -/

theorem addw_eq_left {a b : Bank} (h : a.length = b.length) (hb : val b = 0) : addw a b = a := by
  rw [addw_eq_ofVal h, hb, Nat.add_zero, ofVal_val]

theorem mulw_eq_left {a b : Bank} (h : a.length = b.length) (hb : val b = 1) : mulw a b = a := by
  rw [mulw_eq_ofVal h, hb, Nat.mul_one, ofVal_val]

/-- `N - 1` is `-1` modulo `N`, so its square is 1. -/
theorem pred_mul_pred_mod {n : Nat} (h : 1 < n) : (n - 1) * (n - 1) % n = 1 := by
  obtain ⟨k, rfl⟩ := Nat.exists_eq_add_of_le' h
  rw [show (k + 1 + 1 - 1) * (k + 1 + 1 - 1) = 1 + (k + 1 + 1) * k by rw [Nat.add_sub_cancel]; ring,
    Nat.add_mul_mod_self_left, Nat.mod_eq_of_lt (by omega)]

/-- Settles O52: each corner case is a product modulo 2^N. -/
theorem mulCornerCases : Obligations.MulCornerCases := by
  intro s hw
  obtain ⟨t, ht, -, h0, -, hval⟩ := mulCommand.2 s hw
  refine ⟨t, ht, fun hz => ?_, fun hb => ?_, fun h1 ha hb => ?_, fun h2 ha hb => ?_, fun h2 ha hb => ?_, ?_⟩
  · rw [hval, mul_eq_zero.2 hz, Nat.zero_mod]
  · rw [h0, mulw_eq_left hw.opa_length_eq_opb hb]
  · rw [hval, ha, hb, pred_mul_pred_mod (Nat.one_lt_two_pow (by omega))]
  · simp [hval, ha, hb, h2]
  · simp [hval, ha, hb, h2]
  · rw [hval, Nat.mod_eq_iff_lt (Nat.two_pow_pos _).ne']

/-- Settles O53: ADD's cases are a sum modulo 2^N; SUB's follow from what its result and OPB sum to. -/
theorem addAndSubCornerCases : Obligations.AddAndSubCornerCases := by
  intro s hw
  have hlen := hw.opa_length_eq_opb
  have ha := hw.opa ▸ val_lt s.blk.opa
  have hb := hw.opb ▸ val_lt s.blk.opb
  obtain ⟨t, ht, htc, ht0, -, hadd⟩ := addCommand.2 s hw
  obtain ⟨u, hu, huc, hu0, -⟩ := subCommand.2 s hw
  obtain ⟨-, hle, hlt⟩ := addAndSubtractModulo s.blk.opa s.blk.opb hlen
  rw [← hu0] at hle hlt
  refine ⟨t, u, ht, hu, fun hwrap => ⟨?_, htc.err⟩, fun h2 hva hvb => ?_, fun hvb => ?_, fun heq => ?_,
    fun hab => ⟨by rw [hlt hab, hw.opa], huc.err⟩, fun heq => ?_, fun h2 hva hvb => ?_, fun hva => ?_⟩
  · rw [hadd, Nat.mod_eq_sub_mod hwrap, Nat.mod_eq_of_lt (by omega)]
  · simp [hadd, hva, hvb, h2]
  · rw [ht0, addw_eq_left hlen hvb]
  · rw [hadd, ← heq, Nat.two_mul]
  · rw [hle (heq ▸ le_rfl), heq, Nat.sub_self]
  · rw [hle (by omega), hva, hvb]
  · rw [hu0, addw_comm (by simp [subw_length, hlen]), addw_subw hlen, hva]

end Sys2Proof.Machine

/-! DIVMOD and the long-division unit (43_divmod.md): the invariant of R235 holds at the start of every iteration, so the
top-bit test selects exactly, and the quotient and the remainder of DIVW follow from what the last iteration leaves. -/

namespace Sys2Proof.Machine

/-! ### Quotient selection (R232) -/

theorem topBit_eq_false_iff (x : Bank) : topBit x = false ↔ 2 * val x < 2 ^ (32 * x.length) := by
  induction x with
  | nil => simp [topBit]
  | cons w ws ih =>
    have hw := w.isLt
    rw [val_cons, List.length_cons, pow_words_succ]
    cases ws with
    | nil =>
      have hmsb : topBit [w] = w.msb := rfl
      rw [hmsb, BitVec.msb_eq_false_iff_two_mul_lt, val_nil, List.length_nil, Nat.mul_zero, Nat.mul_zero, Nat.add_zero,
        Nat.pow_zero, Nat.mul_one]
    | cons v vs =>
      have hpow : 2 ^ (32 * (v :: vs).length) = 2 * (2 ^ 31 * 2 ^ (32 * vs.length)) := by
        rw [List.length_cons, pow_words_succ]
        ring
      rw [topBit_cons, ih, hpow]
      omega

/-- Where the minuend and the subtrahend are less than half the range apart, the top bit of the difference is the
borrow. -/
theorem topBit_subw_eq_false_iff {x y : Bank} (hlen : x.length = y.length)
    (habove : 2 * val x < 2 * val y + 2 ^ (32 * x.length)) (hbelow : 2 * val y ≤ 2 * val x + 2 ^ (32 * x.length)) :
    topBit (subw x y) = false ↔ val y ≤ val x := by
  have hlt := val_lt (subw x y)
  rw [topBit_eq_false_iff]
  rw [subw_length, ← hlen, Nat.min_self] at hlt ⊢
  obtain hsum | hsum := val_subw_add hlen <;> omega

/-! ### Bit lengths of dividend and divisor -/

theorem val_lt_two_pow_bitlen (a : Bank) : val a < 2 ^ bitlen a := (bitlen_le_iff a _).1 le_rfl

theorem bitlen_pos {a : Bank} (h : val a ≠ 0) : 0 < bitlen a := by
  rw [← not_le, bitlen_le_iff]
  omega

theorem two_pow_bitlen_le {a : Bank} (h : val a ≠ 0) : 2 ^ bitlen a ≤ 2 * val a := by
  obtain ⟨k, hk⟩ := Nat.exists_eq_add_one_of_ne_zero (bitlen_pos h).ne'
  have hge : 2 ^ k ≤ val a := by
    rw [← not_lt, ← bitlen_le_iff]
    omega
  rw [hk, Nat.pow_succ]
  omega

theorem bitlen_le_bits (a : Bank) : bitlen a ≤ bits a := (bitlen_le_iff a _).2 (val_lt a)

theorem bitlen_mono {a b : Bank} (h : val b ≤ val a) : bitlen b ≤ bitlen a :=
  (bitlen_le_iff b _).2 (h.trans_lt (val_lt_two_pow_bitlen a))

/-- The fuel of the loop does not run out (R234). -/
theorem divStart_bd_lt_bits (old : DivRegs) {a b : Bank} (hb : val b ≠ 0) (hle : val b ≤ val a) :
    (divStart old a b).bd < bits a := by
  have hpos := bitlen_pos hb
  have hmono := bitlen_mono hle
  have hbits := bitlen_le_bits a
  change bitlen a - bitlen b < bits a
  omega

/-! ### One iteration (R231) -/

@[simp] theorem divCountDown_rem (d : DivRegs) : (divCountDown d).rem = d.rem := rfl

@[simp] theorem divCountDown_c (d : DivRegs) : (divCountDown d).c = d.c := rfl

@[simp] theorem divCountDown_e (d : DivRegs) : (divCountDown d).e = d.e := rfl

@[simp] theorem divCountDown_divIter_bd (d : DivRegs) : (divCountDown (divIter d)).bd = d.bd - 1 := rfl

theorem divCountDown_divIter_bd_lt {d : DivRegs} {fuel : Nat} (h : d.bd < fuel + 1) (hbd : d.bd ≠ 0) :
    (divCountDown (divIter d)).bd < fuel := by
  rw [divCountDown_divIter_bd]
  omega

theorem val_divIter_c (d : DivRegs) : val (divIter d).c = val d.c / 2 := val_shr d.c 1

theorem val_divIter_e (d : DivRegs) : val (divIter d).e = val d.e / 2 := val_shr d.e 1

theorem divIter_of_accepted {d : DivRegs} (h : topBit (subw d.rem d.c) = false) :
    (divIter d).rem = subw d.rem d.c ∧ (divIter d).quo = addw d.quo d.e := by
  simp [divIter, h]

theorem divIter_of_rejected {d : DivRegs} (h : topBit (subw d.rem d.c) = true) :
    (divIter d).rem = d.rem ∧ (divIter d).quo = d.quo := by
  simp [divIter, h]

/-- What holds at the start of each iteration of the division of `a` by `b`: the relations of R235, and that the partial
remainder and the shifted divisor are less than half the range apart (the proof of R233). -/
structure DivInv (a b : Bank) (d : DivRegs) : Prop where
  lengths  : d.rem.length = a.length ∧ d.quo.length = a.length ∧ d.c.length = a.length ∧ d.e.length = a.length
  dividend : val a = val d.quo * val b + val d.rem
  rem_lt   : val d.rem < 2 * val d.c
  divisor  : val d.c = val b * val d.e
  weight   : val d.e = 2 ^ d.bd
  above    : 2 * val d.rem < 2 * val d.c + 2 ^ (32 * a.length)
  below    : 2 * val d.c ≤ 2 * val d.rem + 2 ^ (32 * a.length)

theorem val_divStart_rem (old : DivRegs) (a b : Bank) : val (divStart old a b).rem = val a := rfl

theorem val_divStart_quo (old : DivRegs) (a b : Bank) : val (divStart old a b).quo = 0 :=
  (val_ofVal _ _).trans (Nat.zero_mod _)

theorem two_pow_bitlen_mul_two_pow_bd (old : DivRegs) {a b : Bank} (hle : val b ≤ val a) :
    2 ^ bitlen b * 2 ^ (divStart old a b).bd = 2 ^ bitlen a := by
  rw [← Nat.pow_add, divStart, Nat.add_sub_cancel' (bitlen_mono hle)]

theorem val_mul_two_pow_bd_lt (old : DivRegs) {a b : Bank} (hle : val b ≤ val a) :
    val b * 2 ^ (divStart old a b).bd < 2 ^ bitlen a :=
  two_pow_bitlen_mul_two_pow_bd old hle ▸
    Nat.mul_lt_mul_of_pos_right (val_lt_two_pow_bitlen b) (Nat.two_pow_pos _)

/-- SHL loses no bit of the divisor. -/
theorem val_divStart_c (old : DivRegs) {a b : Bank} (hlen : a.length = b.length) (hle : val b ≤ val a) :
    val (divStart old a b).c = val b * 2 ^ (divStart old a b).bd := by
  have hrange : 2 ^ bitlen a ≤ 2 ^ (32 * b.length) := Nat.pow_le_pow_right two_pos (hlen ▸ bitlen_le_bits a)
  exact (val_shl _ _).trans (Nat.mod_eq_of_lt ((val_mul_two_pow_bd_lt old hle).trans_le hrange))

theorem val_divStart_e (old : DivRegs) {a b : Bank} (hb : val b ≠ 0) (hle : val b ≤ val a) :
    val (divStart old a b).e = 2 ^ (divStart old a b).bd := by
  have hbd : (divStart old a b).bd < 32 * a.length := divStart_bd_lt_bits old hb hle
  have hone : 1 < 2 ^ (32 * a.length) := Nat.one_lt_two_pow (Nat.ne_zero_of_lt hbd)
  refine (val_shl _ _).trans ?_
  rw [ofVal_length, val_ofVal, Nat.mod_eq_of_lt hone, Nat.one_mul]
  exact Nat.mod_eq_of_lt (Nat.pow_lt_pow_right Nat.one_lt_two hbd)

/-- The shifted divisor comes to stand under the top bit of the dividend. -/
theorem divStart_c_bounds (old : DivRegs) {a b : Bank} (hlen : a.length = b.length) (hb : val b ≠ 0)
    (hle : val b ≤ val a) :
    val (divStart old a b).c < 2 ^ bitlen a ∧ 2 ^ bitlen a ≤ 2 * val (divStart old a b).c := by
  rw [val_divStart_c old hlen hle]
  refine ⟨val_mul_two_pow_bd_lt old hle, ?_⟩
  rw [← two_pow_bitlen_mul_two_pow_bd old hle, ← Nat.mul_assoc]
  exact Nat.mul_le_mul_right _ (two_pow_bitlen_le hb)

/-- At the start dividend and shifted divisor have the same top bit, so they are less than half the range apart. -/
theorem divInv_divStart (old : DivRegs) {a b : Bank} (hlen : a.length = b.length) (hb : val b ≠ 0)
    (hle : val b ≤ val a) : DivInv a b (divStart old a b) := by
  have hrem := val_divStart_rem old a b
  obtain ⟨hclt, hcge⟩ := divStart_c_bounds old hlen hb hle
  have halt := val_lt_two_pow_bitlen a
  have hage : 2 ^ bitlen a ≤ 2 * val a := two_pow_bitlen_le (by omega)
  have hrange : 2 ^ bitlen a ≤ 2 ^ (32 * a.length) := Nat.pow_le_pow_right two_pos (bitlen_le_bits a)
  exact {
    lengths := by simp [divStart, hlen]
    dividend := by rw [val_divStart_quo, hrem, Nat.zero_mul, Nat.zero_add]
    rem_lt := by omega
    divisor := by rw [val_divStart_c old hlen hle, val_divStart_e old hb hle]
    weight := val_divStart_e old hb hle
    above := by omega
    below := by omega }

section
variable {a b : Bank} {d : DivRegs}

/-- The top-bit test is the comparison (R233). -/
theorem DivInv.accepted_iff (h : DivInv a b d) : topBit (subw d.rem d.c) = false ↔ val d.c ≤ val d.rem := by
  obtain ⟨hrem, -, hc, -⟩ := h.lengths
  refine topBit_subw_eq_false_iff (hrem.trans hc.symm) ?_ ?_ <;> rw [hrem]
  · exact h.above
  · exact h.below

/-- A weight that is accepted fits: the quotient stays at most `a`. -/
theorem DivInv.val_addw (h : DivInv a b d) (hle : val d.c ≤ val d.rem) :
    val (addw d.quo d.e) = val d.quo + val d.e := by
  obtain ⟨-, hquo, -, he⟩ := h.lengths
  have hc : 0 < val b * val d.e := h.divisor ▸ pos_of_mul_pos_right (Nat.zero_lt_of_lt h.rem_lt) (Nat.zero_le 2)
  have hb : 0 < val b := pos_of_mul_pos_left hc (Nat.zero_le _)
  have hfits : val d.quo + val d.e ≤ val a := by
    calc val d.quo + val d.e ≤ (val d.quo + val d.e) * val b := Nat.le_mul_of_pos_right _ hb
      _ = val d.quo * val b + val d.c := by rw [h.divisor]; ring
      _ ≤ val a := by rw [h.dividend]; omega
  rw [addw_eq_ofVal (hquo.trans he.symm), val_ofVal, hquo, Nat.mod_eq_of_lt (hfits.trans_lt (val_lt a))]

/-- An iteration keeps `a = quo*b + rem` and brings the partial remainder below the shifted divisor. -/
theorem DivInv.iter (h : DivInv a b d) :
    val a = val (divIter d).quo * val b + val (divIter d).rem ∧ val (divIter d).rem < val d.c := by
  have hdividend := h.dividend
  have hlt := h.rem_lt
  by_cases hle : val d.c ≤ val d.rem
  · obtain ⟨hrem, hquo⟩ := divIter_of_accepted (h.accepted_iff.2 hle)
    obtain ⟨hremLen, -, hcLen, -⟩ := h.lengths
    have hsub : val (subw d.rem d.c) = val d.rem - val d.c :=
      (addAndSubtractModulo _ _ (hremLen.trans hcLen.symm)).2.1 hle
    have hweight : val d.e * val b = val d.c := by rw [h.divisor, Nat.mul_comm]
    rw [hrem, hquo, h.val_addw hle, hsub, Nat.add_mul, hweight]
    omega
  · obtain ⟨hrem, hquo⟩ := divIter_of_rejected (Bool.not_eq_false _ ▸ mt h.accepted_iff.1 hle)
    rw [hrem, hquo]
    exact ⟨hdividend, not_le.1 hle⟩

/-- The shifts of R231 are exact while another iteration is to come. -/
theorem DivInv.countDown (h : DivInv a b d) (hbd : d.bd ≠ 0) : DivInv a b (divCountDown (divIter d)) := by
  obtain ⟨k, hk⟩ := Nat.exists_eq_add_one_of_ne_zero hbd
  obtain ⟨hdividend, hlt⟩ := h.iter
  have he : val d.e = 2 * 2 ^ k := by rw [h.weight, hk, Nat.pow_succ, Nat.mul_comm]
  have hc : val d.c = 2 * (val b * 2 ^ k) := by rw [h.divisor, he, Nat.mul_left_comm]
  have he' : val (divIter d).e = 2 ^ k := by rw [val_divIter_e, he, Nat.mul_div_cancel_left _ two_pos]
  have hc' : val (divIter d).c = val b * 2 ^ k := by rw [val_divIter_c, hc, Nat.mul_div_cancel_left _ two_pos]
  obtain ⟨-, -, hcLen, -⟩ := h.lengths
  have hrange := hcLen ▸ val_lt d.c
  exact {
    lengths := divIter_lengths _ d h.lengths
    dividend := hdividend
    rem_lt := by rw [divCountDown_rem, divCountDown_c]; omega
    divisor := by rw [divCountDown_c, divCountDown_e, hc', he']
    weight := by rw [divCountDown_e, he', divCountDown_divIter_bd, hk, Nat.add_sub_cancel]
    above := by rw [divCountDown_rem, divCountDown_c]; omega
    below := by rw [divCountDown_rem, divCountDown_c]; omega }

end

/-! ### All iterations -/

theorem DivInv.of_mem_divTrace {a b : Bank} {fuel : Nat} {d d' : DivRegs} (h : DivInv a b d)
    (hmem : d' ∈ divTrace fuel d) : DivInv a b d' := by
  induction fuel generalizing d with
  | zero => cases hmem
  | succ fuel ih =>
    rw [divTrace, List.mem_cons] at hmem
    obtain rfl | hmem := hmem
    · exact h
    · split at hmem
      case isTrue => cases hmem
      case isFalse hbd => exact ih (h.countDown hbd) hmem

/-- The iterations count `bd` down to 0. -/
theorem divTrace_map_bd {fuel : Nat} {d : DivRegs} (h : d.bd < fuel) :
    (divTrace fuel d).map DivRegs.bd = (List.range (d.bd + 1)).reverse := by
  induction fuel generalizing d with
  | zero => cases h
  | succ fuel ih =>
    rw [divTrace, List.map_cons, List.range_succ, List.reverse_concat]
    split
    case isTrue hbd => rw [hbd]; rfl
    case isFalse hbd =>
      rw [ih (divCountDown_divIter_bd_lt h hbd), divCountDown_divIter_bd, Nat.sub_add_cancel (by omega)]

theorem divLoop_add {fuel : Nat} {d : DivRegs} (h : d.bd < fuel) (more : Nat) :
    divLoop (fuel + more) d = divLoop fuel d := by
  induction fuel generalizing d with
  | zero => cases h
  | succ fuel ih =>
    rw [Nat.succ_add, divLoop, divLoop]
    split
    case isTrue => rfl
    case isFalse hbd => exact ih (divCountDown_divIter_bd_lt h hbd)

/-- The last iteration subtracts the divisor itself, so what remains is below it. -/
theorem DivInv.loop {a b : Bank} {fuel : Nat} {d : DivRegs} (h : DivInv a b d) (hfuel : d.bd < fuel) :
    val a = val (divLoop fuel d).quo * val b + val (divLoop fuel d).rem ∧ val (divLoop fuel d).rem < val b := by
  induction fuel generalizing d with
  | zero => cases hfuel
  | succ fuel ih =>
    rw [divLoop]
    split
    case isTrue hbd =>
      have hc : val d.c = val b := by rw [h.divisor, h.weight, hbd, Nat.pow_zero, Nat.mul_one]
      exact hc ▸ h.iter
    case isFalse hbd => exact ih (h.countDown hbd) (divCountDown_divIter_bd_lt hfuel hbd)

/-! ### DIVW (R233 to R235) -/

theorem divw_of_lt (old : DivRegs) {a b : Bank} (hlen : a.length = b.length) (hlt : val a < val b) :
    divw old a b = (ofVal a.length 0, a) := by
  rw [divw, if_pos ((ltw_iff hlen).2 hlt)]

theorem divw_of_le (old : DivRegs) {a b : Bank} (hlen : a.length = b.length) (hle : val b ≤ val a) :
    divw old a b =
      ((divLoop (bits a) (divStart old a b)).quo, (divLoop (bits a) (divStart old a b)).rem) := by
  rw [divw, if_neg (mt (ltw_iff hlen).1 hle.not_gt)]

theorem val_divw (old : DivRegs) {a b : Bank} (hlen : a.length = b.length) (hb : val b ≠ 0) :
    val (divw old a b).1 = val a / val b ∧ val (divw old a b).2 = val a % val b := by
  obtain hlt | hle := lt_or_ge (val a) (val b)
  · rw [divw_of_lt old hlen hlt, val_ofVal, Nat.zero_mod, Nat.div_eq_of_lt hlt, Nat.mod_eq_of_lt hlt]
    exact ⟨rfl, rfl⟩
  · obtain ⟨hdividend, hlt⟩ := (divInv_divStart old hlen hb hle).loop (divStart_bd_lt_bits old hb hle)
    rw [divw_of_le old hlen hle]
    exact ((Nat.div_mod_unique (Nat.pos_of_ne_zero hb)).2
      ⟨by rw [hdividend, Nat.mul_comm, Nat.add_comm], hlt⟩).imp Eq.symm Eq.symm

theorem divw_eq_ofVal (old : DivRegs) {a b : Bank} (hlen : a.length = b.length) (hb : val b ≠ 0) :
    divw old a b = (ofVal a.length (val a / val b), ofVal a.length (val a % val b)) := by
  obtain ⟨hquo, hrem⟩ := divw_lengths old a b hlen
  obtain ⟨hdiv, hmod⟩ := val_divw old hlen hb
  rw [← hdiv, ← hmod]
  nth_rw 1 [← hquo]
  rw [← hrem, ofVal_val, ofVal_val]

/-- Settles O54: quotient and remainder from what the last iteration leaves, the test from the invariant. -/
theorem longDivisionIsExact : Obligations.LongDivisionIsExact := by
  intro old a b hlen hb
  obtain ⟨hdiv, hmod⟩ := val_divw old hlen hb
  exact ⟨hdiv, hmod, fun hle d hd => ((divInv_divStart old hlen hb hle).of_mem_divTrace hd).accepted_iff⟩

/-- Settles O55: the relations are part of the invariant, which holds along the trace. -/
theorem partialRemainderTracking : Obligations.PartialRemainderTracking := by
  intro old a b hlen hb hle
  have hstart := divInv_divStart old hlen hb hle
  have hfuel := divStart_bd_lt_bits old hb hle
  refine ⟨fun d hd => ?_, divTrace_map_bd hfuel, (hstart.loop hfuel).2⟩
  obtain ⟨-, hdividend, hrem, hc, he, -⟩ := hstart.of_mem_divTrace hd
  exact ⟨hdividend, hrem, hc, he⟩

/-- Settles O56: `bd` counts the iterations down to 0 from a value below N. -/
theorem divisionIterationCount : Obligations.DivisionIterationCount := by
  refine fun old a b hlen hb => ⟨divw_of_lt old hlen, fun hle => ?_⟩
  have hfuel := divStart_bd_lt_bits old hb hle
  refine ⟨?_, bitlen_mono hle, hfuel, divLoop_add hfuel⟩
  simpa [divStart] using congrArg List.length (divTrace_map_bd hfuel)

/-! ### The command (R230, R237, R239) -/

/-- Settles O36, by the two results DIVMOD ends with. -/
theorem divmodCommand : Obligations.DivmodCommand := by
  refine ⟨rfl, fun s => ⟨fun hb => ?_, fun hb => ?_⟩⟩
  · rw [exec_eq, resultOf, divmodResult, if_pos hb]
    exact ⟨_, rfl, complete_error .divByZero s, rfl, rfl⟩
  · rw [exec_eq, resultOf, divmodResult, if_neg hb]
    exact ⟨_, rfl, complete_ok _ _ s, rfl, rfl⟩

/-- On a divisor that is not 0 DIVMOD writes the mathematical quotient and remainder, which fit their registers. -/
theorem exec_divmod_results {s : State} (hw : Block.Wf s.cfg.words s.blk) (hb : val s.blk.opb ≠ 0) :
    ∃ t, exec .divmod s = .next t ∧
      t.blk.res0 = ofVal s.blk.opa.length (val s.blk.opa / val s.blk.opb) ∧
      t.blk.res1 = ofVal s.blk.opa.length (val s.blk.opa % val s.blk.opb) ∧
      val t.blk.res0 = val s.blk.opa / val s.blk.opb ∧ val t.blk.res1 = val s.blk.opa % val s.blk.opb := by
  have hlen := hw.opa_length_eq_opb
  obtain ⟨t, ht, -, h0, h1⟩ := (divmodCommand.2 s).2 hb
  obtain ⟨hdiv, hmod⟩ := val_divw s.blk.hidden.div hlen hb
  rw [← h0] at hdiv
  rw [← h1] at hmod
  rw [divw_eq_ofVal _ hlen hb] at h0 h1
  exact ⟨t, ht, h0, h1, hdiv, hmod⟩

theorem val_ofVal_of_le {a : Bank} {v : Nat} (h : v ≤ val a) : val (ofVal a.length v) = v := by
  rw [val_ofVal, Nat.mod_eq_of_lt (h.trans_lt (val_lt a))]

/-- The division identity on registers: the product of quotient and divisor does not wrap. -/
theorem addw_mulw_div_mod {a b : Bank} (hlen : a.length = b.length) :
    addw (mulw (ofVal a.length (val a / val b)) b) (ofVal a.length (val a % val b)) = a := by
  rw [mulw_eq_ofVal (by simp [hlen]), addw_eq_ofVal (by simp), ofVal_length, ofVal_length,
    val_ofVal_of_le (Nat.div_le_self _ _), val_ofVal_of_le (Nat.mod_le _ _),
    val_ofVal_of_le (Nat.div_mul_le_self _ _), Nat.div_add_mod', ofVal_val]

/-- Settles O37: quotient and remainder put together make the dividend. -/
theorem divmodGivesQuotientAndRemainder : Obligations.DivmodGivesQuotientAndRemainder := by
  intro s hw hb
  have hlen := hw.opa_length_eq_opb
  obtain ⟨t, ht, h0, h1, hdiv, hmod⟩ := exec_divmod_results hw hb
  refine ⟨t, ht, hdiv, hmod, by rw [h0, h1, addw_mulw_div_mod hlen], ?_⟩
  rw [ltw_iff (by simp [h1, hlen]), hmod]
  exact Nat.mod_lt _ (Nat.pos_of_ne_zero hb)

/-- Settles O38: each corner case is a quotient and a remainder. -/
theorem divmodCornerCases : Obligations.DivmodCornerCases := by
  intro s hw
  by_cases hb : val s.blk.opb = 0
  · obtain ⟨t, ht, hc, h0, h1⟩ := (divmodCommand.2 s).1 hb
    refine ⟨t, ht, fun _ => ⟨hc.err, h0, h1⟩, absurd hb, absurd hb, fun hone => by omega, absurd hb,
      fun _ _ hvb => by omega, fun _ _ hvb => by omega⟩
  · obtain ⟨t, ht, h0, h1, hdiv, hmod⟩ := exec_divmod_results hw hb
    refine ⟨t, ht, fun hz => absurd hz hb, fun _ hlt => ⟨?_, ?_⟩, fun _ heq => ⟨?_, ?_⟩, fun hone => ⟨?_, ?_⟩,
      fun _ hz => ⟨?_, ?_⟩, fun _ hva hvb => ?_, fun _ hva hvb => ?_⟩
    · rw [hdiv, Nat.div_eq_of_lt hlt]
    · rw [h1, Nat.mod_eq_of_lt hlt, ofVal_val]
    · rw [hdiv, heq, Nat.div_self (Nat.pos_of_ne_zero hb)]
    · rw [hmod, heq, Nat.mod_self]
    · rw [h0, hone, Nat.div_one, ofVal_val]
    · rw [hmod, hone, Nat.mod_one]
    · rw [hdiv, hz, Nat.zero_div]
    · rw [hmod, hz, Nat.zero_mod]
    · rw [hdiv, hmod, hva, hvb]
      decide
    · rw [hdiv, hmod, hva, hvb]
      decide

end Sys2Proof.Machine

/-! MODEXP and the exponentiation engine (44_modexp.md): each iteration halves the exponent, so it runs BITLEN(exp) times,
and the last one, at exponent 1, multiplies and reduces; what a predicate kept by every iteration says of that multiply is
what MODEXPF returns. -/

namespace Sys2Proof.Machine

/-! ### Control of the loop (R261, R263) -/

theorem expGoesOn_iff (g : ExpRegs) : expGoesOn g = true ↔ val g.ex ≠ 0 := by
  rw [expGoesOn, neqw_iff (by simp), val_ofVal, Nat.zero_mod]

theorem val_expIter_ex (old : DivRegs) (g : ExpRegs) : val (expIter old g).ex = val g.ex / 2 := val_shr g.ex 1

theorem bitlen_eq_zero_iff (a : Bank) : bitlen a = 0 ↔ val a = 0 := by
  rw [← Nat.le_zero, bitlen_le_iff, Nat.pow_zero, Nat.lt_one_iff]

/-- An iteration takes one bit off the exponent. -/
theorem bitlen_expIter_ex (old : DivRegs) {g : ExpRegs} (hex : val g.ex ≠ 0) :
    bitlen (expIter old g).ex + 1 = bitlen g.ex := by
  refine eq_of_forall_ge_iff fun k => ?_
  cases k with
  | zero => simp [bitlen_eq_zero_iff, hex]
  | succ k =>
    rw [Nat.add_le_add_iff_right, bitlen_le_iff, bitlen_le_iff, val_expIter_ex, Nat.div_lt_iff_lt_mul two_pos,
      Nat.pow_succ]

theorem expLoop_of_eq_zero (old : DivRegs) (fuel : Nat) {g : ExpRegs} (hex : val g.ex = 0) : expLoop old fuel g = g := by
  cases fuel with
  | zero => rfl
  | succ fuel => rw [expLoop, if_neg (by simp [expGoesOn_iff, hex])]

theorem expLoop_of_ne_zero (old : DivRegs) (fuel : Nat) {g : ExpRegs} (hex : val g.ex ≠ 0) :
    expLoop old (fuel + 1) g = expLoop old fuel (expIter old g) := by
  rw [expLoop, if_pos ((expGoesOn_iff g).2 hex)]

theorem expTrace_of_eq_zero (old : DivRegs) (fuel : Nat) {g : ExpRegs} (hex : val g.ex = 0) :
    expTrace old fuel g = [] := by
  cases fuel with
  | zero => rfl
  | succ fuel => rw [expTrace, if_neg (by simp [expGoesOn_iff, hex])]

theorem expTrace_of_ne_zero (old : DivRegs) (fuel : Nat) {g : ExpRegs} (hex : val g.ex ≠ 0) :
    expTrace old (fuel + 1) g = g :: expTrace old fuel (expIter old g) := by
  rw [expTrace, if_pos ((expGoesOn_iff g).2 hex)]

/-- Induction over the iterations of the loop: it exits at exponent 0, and an iteration takes one from the bit length of
the exponent and one from fuel that is enough for it. -/
theorem expLoop_induction (old : DivRegs) {motive : (fuel : Nat) → (g : ExpRegs) → bitlen g.ex ≤ fuel → Prop}
    (exit : ∀ fuel g hfuel, val g.ex = 0 → motive fuel g hfuel)
    (iterate : ∀ fuel g hfuel hrest, val g.ex ≠ 0 → motive fuel (expIter old g) hrest → motive (fuel + 1) g hfuel)
    {fuel : Nat} {g : ExpRegs} (hfuel : bitlen g.ex ≤ fuel) : motive fuel g hfuel := by
  induction fuel generalizing g with
  | zero => exact exit 0 g hfuel ((bitlen_eq_zero_iff _).1 (Nat.le_zero.1 hfuel))
  | succ fuel ih =>
    by_cases hex : val g.ex = 0
    · exact exit _ g hfuel hex
    · have hbits := bitlen_expIter_ex old hex
      exact iterate fuel g hfuel (by omega) hex (ih _)

theorem expTrace_length (old : DivRegs) {fuel : Nat} {g : ExpRegs} (hfuel : bitlen g.ex ≤ fuel) :
    (expTrace old fuel g).length = bitlen g.ex := by
  induction hfuel using expLoop_induction old with
  | exit fuel g _ hex => rw [expTrace_of_eq_zero old fuel hex, List.length_nil, (bitlen_eq_zero_iff _).2 hex]
  | iterate fuel g _ _ hex ih => rw [expTrace_of_ne_zero old fuel hex, List.length_cons, ih, bitlen_expIter_ex old hex]

theorem expLoop_add (old : DivRegs) {fuel : Nat} {g : ExpRegs} (hfuel : bitlen g.ex ≤ fuel) (more : Nat) :
    expLoop old (fuel + more) g = expLoop old fuel g := by
  induction hfuel using expLoop_induction old with
  | exit fuel g _ hex => rw [expLoop_of_eq_zero old _ hex, expLoop_of_eq_zero old _ hex]
  | iterate fuel g _ _ hex ih => rw [Nat.succ_add, expLoop_of_ne_zero old _ hex, ih, expLoop_of_ne_zero old _ hex]

/-- Settles O43: the trace has one entry for each bit of the exponent, and N iterations are enough. -/
theorem modexpIterationCount : Obligations.ModexpIterationCount := by
  intro words old base exp m _ he _
  have hbits : bitlen exp ≤ bits exp := bitlen_le_bits exp
  exact ⟨expTrace_length old hbits, he ▸ hbits, expLoop_add old hbits⟩

/-! ### One iteration as numbers (R262) -/

theorem val_remw_mulw {words : Nat} (old : DivRegs) {a b m : Bank} (ha : a.length = words) (hb : b.length = words)
    (hm : m.length = words) (hne : val m ≠ 0) :
    val (remw old (mulw a b) m) = val a * val b % 2 ^ (32 * words) % val m := by
  rw [remw, (val_divw old (by rw [mulw_length, ha, hm]) hne).2, mulw_eq_ofVal (ha.trans hb.symm), val_ofVal, ha]

/-- Engine registers of W words with a modulus to reduce by. -/
structure ExpRegs.Ready (words : Nat) (g : ExpRegs) : Prop where
  acc     : g.acc.length = words
  bs      : g.bs.length = words
  ex      : g.ex.length = words
  m       : g.m.length = words
  modulus : val g.m ≠ 0

section
variable {words : Nat} {g : ExpRegs} (old : DivRegs)

theorem ExpRegs.Ready.iter (h : g.Ready words) : (expIter old g).Ready words := by
  obtain ⟨hacc, hbs, hex, hm⟩ := expIter_lengths words old g h.acc h.bs h.ex h.m
  exact ⟨hacc, hbs, hex, hm, h.modulus⟩

theorem ExpRegs.Ready.val_acc (h : g.Ready words) : val (expIter old g).acc =
    if val g.ex % 2 = 1 then val g.acc * val g.bs % 2 ^ (32 * words) % val g.m else val g.acc := by
  rw [expIter, ← val_remw_mulw old h.acc h.bs h.m h.modulus]
  simp only [oddw_iff]
  split <;> rfl

theorem ExpRegs.Ready.val_bs (h : g.Ready words) :
    val (expIter old g).bs = val g.bs * val g.bs % 2 ^ (32 * words) % val g.m :=
  val_remw_mulw old h.bs h.bs h.m h.modulus

end

/-- Settles O40: each product is truncated by MULW and reduced by REMW, and the exponent is shifted. -/
theorem modexpIteration : Obligations.ModexpIteration := by
  intro words old g hacc hbs hex hm hne
  have h : g.Ready words := ⟨hacc, hbs, hex, hm, hne⟩
  exact ⟨h.val_acc old, h.val_bs old, val_expIter_ex old g, rfl⟩

/-! ### The registers before the loop (R261) -/

theorem expStart_ready {words : Nat} {base exp m : Bank} (hb : base.length = words) (he : exp.length = words)
    (hm : m.length = words) (hne : val m ≠ 0) : (expStart base exp m).Ready words :=
  ⟨by simp [expStart, hb], hb, he, hm, hne⟩

theorem words_pos_of_val_ne_zero {words : Nat} {a : Bank} (ha : a.length = words) (h : val a ≠ 0) : 1 ≤ words := by
  cases a with
  | nil => exact absurd val_nil h
  | cons w ws => exact ha ▸ Nat.succ_pos _

theorem val_expStart_acc {words : Nat} {base exp m : Bank} (hb : base.length = words) (hw : 1 ≤ words) :
    val (expStart base exp m).acc = 1 := by
  rw [expStart, val_ofVal, hb, Nat.one_mod_two_pow (by omega)]

/-! ### The last iteration -/

/-- A loop that runs at all ends with an iteration at exponent 1, and what every iteration keeps holds before it. -/
theorem exists_last_iteration {old : DivRegs} {P : ExpRegs → Prop} (hkeep : ∀ g, P g → P (expIter old g)) {fuel : Nat}
    {g : ExpRegs} (hfuel : bitlen g.ex ≤ fuel) (hP : P g) (hex : val g.ex ≠ 0) :
    ∃ g', P g' ∧ val g'.ex = 1 ∧ expLoop old fuel g = expIter old g' := by
  induction hfuel using expLoop_induction old with
  | exit fuel g _ hzero => exact absurd hzero hex
  | iterate fuel g _ _ hne ih =>
    rw [expLoop_of_ne_zero old fuel hne]
    by_cases hlast : val (expIter old g).ex = 0
    · rw [expLoop_of_eq_zero old fuel hlast]
      rw [val_expIter_ex] at hlast
      exact ⟨g, hP, by omega, rfl⟩
    · exact ih (hkeep g hP) hlast

/-- MODEXPF returns the reduced product of the last iteration. -/
theorem val_modexpf_of_keeps {words : Nat} {old : DivRegs} {base exp m : Bank} {P : ExpRegs → Prop}
    (hready : ∀ g, P g → g.Ready words) (hkeep : ∀ g, P g → P (expIter old g)) (hstart : P (expStart base exp m))
    (hexp : val exp ≠ 0) :
    ∃ g, P g ∧ val g.ex = 1 ∧
      val (modexpf old base exp m) = val g.acc * val g.bs % 2 ^ (32 * words) % val g.m := by
  obtain ⟨g, hP, hone, hloop⟩ :=
    exists_last_iteration hkeep (g := expStart base exp m) (bitlen_le_bits exp) hstart hexp
  refine ⟨g, hP, hone, ?_⟩
  rw [modexpf, hloop, (hready g hP).val_acc, hone, if_pos (by decide)]

/-! ### Corner cases of MODEXPF (R266) -/

section
variable {words : Nat} (old : DivRegs) {base exp m : Bank}

/-- Exponent 0: no iteration runs. -/
theorem val_modexpf_of_exp_zero (hb : base.length = words) (hw : 1 ≤ words) (hexp : val exp = 0) :
    val (modexpf old base exp m) = 1 := by
  rw [modexpf, expLoop_of_eq_zero old _ (g := expStart base exp m) hexp, val_expStart_acc hb hw]

variable (hb : base.length = words) (he : exp.length = words) (hm : m.length = words)
include hb he hm

/-- Modulus 1: every remainder is 0. -/
theorem val_modexpf_of_mod_one (hexp : val exp ≠ 0) (hone : val m = 1) : val (modexpf old base exp m) = 0 := by
  obtain ⟨g, ⟨-, hg⟩, -, hval⟩ := val_modexpf_of_keeps (old := old) (P := fun g => g.Ready words ∧ val g.m = 1)
    (fun g h => h.1) (fun g h => ⟨h.1.iter old, h.2⟩) ⟨expStart_ready hb he hm (by omega), hone⟩ hexp
  rw [hval, hg, Nat.mod_one]

/-- Base 0: its squares are 0, and so is the product with them. -/
theorem val_modexpf_of_base_zero (hexp : val exp ≠ 0) (hne : val m ≠ 0) (hzero : val base = 0) :
    val (modexpf old base exp m) = 0 := by
  obtain ⟨g, ⟨-, hg⟩, -, hval⟩ := val_modexpf_of_keeps (old := old) (P := fun g => g.Ready words ∧ val g.bs = 0)
    (fun g h => h.1) (fun g ⟨hready, hbs⟩ => ⟨hready.iter old, by simp [hready.val_bs, hbs]⟩)
    ⟨expStart_ready hb he hm hne, hzero⟩ hexp
  simp [hval, hg]

/-- Exponent 1: the first iteration is the last, and the product of 1 and the base is not truncated. -/
theorem val_modexpf_of_exp_one (hone : val exp = 1) (hne : val m ≠ 0) :
    val (modexpf old base exp m) = val base % val m := by
  have hready := expStart_ready hb he hm hne
  have hw : 1 ≤ words := words_pos_of_val_ne_zero he (by omega)
  have hex : val (expStart base exp m).ex = 1 := hone
  obtain ⟨fuel, hfuel⟩ := Nat.exists_eq_add_one_of_ne_zero (n := bits exp) (by rw [bits, he]; omega)
  rw [modexpf, hfuel, expLoop_of_ne_zero old fuel (by omega), expLoop_of_eq_zero old fuel (by rw [val_expIter_ex, hex]),
    hready.val_acc, hex, if_pos (by decide), val_expStart_acc hb hw, Nat.one_mul]
  exact congrArg (· % val m) (Nat.mod_eq_of_lt (hb ▸ val_lt base))

end

/-! ### The exact range (R264) -/

/-- Square and multiply: the accumulator times the power that is still to come keeps its residue. -/
theorem square_multiply_mod (a b e m : Nat) :
    (if e % 2 = 1 then a * b % m else a) * (b * b % m) ^ (e / 2) % m = a * b ^ e % m := by
  have hsquare : (b * b % m) ^ (e / 2) ≡ b ^ (2 * (e / 2)) [MOD m] := by
    rw [Nat.pow_mul, Nat.pow_two]
    exact (Nat.mod_modEq _ _).pow _
  obtain ⟨heven, hexp⟩ | ⟨hodd, hexp⟩ :
      (e % 2 = 0 ∧ 2 * (e / 2) = e) ∨ (e % 2 = 1 ∧ 2 * (e / 2) + 1 = e) := by omega
  · rw [hexp] at hsquare
    rw [if_neg (by omega)]
    exact hsquare.mul_left a
  · have hpow : a * b ^ e = a * b * b ^ (2 * (e / 2)) := by
      rw [Nat.mul_assoc, ← Nat.pow_succ', Nat.succ_eq_add_one, hexp]
    rw [if_pos hodd, hpow]
    exact (Nat.mod_modEq _ _).mul hsquare

/-- No product reaches 2^N, and the accumulator times the power still to come has the residue `r`. -/
structure ExpRegs.Exact (words r : Nat) (g : ExpRegs) : Prop where
  ready   : g.Ready words
  acc     : val g.acc < 2 ^ (16 * words)
  bs      : val g.bs < 2 ^ (16 * words)
  m       : val g.m ≤ 2 ^ (16 * words)
  residue : val g.acc * val g.bs ^ val g.ex % val g.m = r

theorem mul_mod_two_pow_of_half {words a b : Nat} (ha : a < 2 ^ (16 * words)) (hb : b < 2 ^ (16 * words)) :
    a * b % 2 ^ (32 * words) = a * b := by
  have hhalf : 2 ^ (32 * words) = 2 ^ (16 * words) * 2 ^ (16 * words) := by rw [← Nat.pow_add]; congr 1; omega
  exact Nat.mod_eq_of_lt (hhalf ▸ Nat.mul_lt_mul'' ha hb)

theorem ExpRegs.Exact.iter {words r : Nat} {g : ExpRegs} (old : DivRegs) (h : g.Exact words r) :
    (expIter old g).Exact words r := by
  have hres : ∀ x, x % val g.m < 2 ^ (16 * words) := fun x =>
    (Nat.mod_lt x (Nat.pos_of_ne_zero h.ready.modulus)).trans_le h.m
  have hacc := h.ready.val_acc old
  have hbs := h.ready.val_bs old
  rw [mul_mod_two_pow_of_half h.acc h.bs] at hacc
  rw [mul_mod_two_pow_of_half h.bs h.bs] at hbs
  refine ⟨h.ready.iter old, ?_, hbs ▸ hres _, h.m, ?_⟩
  · rw [hacc]
    split
    · exact hres _
    · exact h.acc
  · rw [hacc, hbs, val_expIter_ex]
    exact (square_multiply_mod _ _ _ _).trans h.residue

/-- Settles O41: in the exact range the last iteration reduces the accumulator times the last factor, which has the
residue of the power. -/
theorem modexpExactRange : Obligations.ModexpExactRange := by
  refine fun words old base exp m hb he hm => ⟨fun hexp hmod hbase hle => ?_, val_modexpf_of_exp_zero old hb⟩
  have hw : 1 ≤ words := words_pos_of_val_ne_zero he (by omega)
  have hacc := val_expStart_acc (exp := exp) (m := m) hb hw
  have hstart : (expStart base exp m).Exact words (val base ^ val exp % val m) :=
    { ready := expStart_ready hb he hm (by omega)
      acc := hacc ▸ Nat.one_lt_two_pow (by omega)
      bs := hbase
      m := hle
      residue := by rw [hacc, Nat.one_mul]; rfl }
  obtain ⟨g, hg, hone, hval⟩ :=
    val_modexpf_of_keeps (fun _ h => h.ready) (fun _ h => h.iter old) hstart (by omega)
  rw [hval, mul_mod_two_pow_of_half hg.acc hg.bs, ← hg.residue, hone, Nat.pow_one]

/-! ### The command (R260, R266) -/

/-- Settles O39, by the two results MODEXP ends with. -/
theorem modexpCommand : Obligations.ModexpCommand := by
  refine ⟨rfl, fun s => ⟨fun hz => ?_, fun hnz => exec_of_resultRes0 ?_⟩⟩
  · rw [exec_eq, resultOf, modexpResult, if_pos hz]
    exact ⟨_, rfl, complete_error .divByZero s, rfl, rfl⟩
  · rw [resultOf, modexpResult, if_neg hnz]

/-- Settles O42: modulus 0 with an exponent is the error, and each other corner case is one of MODEXPF. -/
theorem modexpCornerCases : Obligations.ModexpCornerCases := by
  intro s hi
  obtain ⟨ha, hb, hc, -⟩ := hi.widths
  by_cases hz : val s.blk.opc = 0 ∧ val s.blk.opb ≠ 0
  · obtain ⟨hmod, hexp⟩ := hz
    obtain ⟨t, ht, hcomp, h0, -⟩ := (modexpCommand.2 s).1 ⟨hmod, hexp⟩
    exact ⟨t, ht, fun h => absurd h hexp, fun _ h => by omega, fun _ _ => ⟨hcomp.err, h0⟩, fun _ h => absurd hmod h,
      fun _ _ h => absurd hmod h⟩
  · obtain ⟨t, ht, hcomp, h0, -⟩ := (modexpCommand.2 s).2 hz
    have hw : 1 ≤ s.cfg.words := (wellFormed_bounds hi.params).1
    refine ⟨t, ht, fun hexp => ⟨?_, hcomp.err⟩, fun hexp hone => ?_, fun hexp hmod => absurd ⟨hmod, by omega⟩ hz,
      fun hone hmod => ?_, fun hexp hbase hmod => ?_⟩ <;> rw [h0]
    · exact val_modexpf_of_exp_zero _ ha hw hexp
    · exact val_modexpf_of_mod_one _ ha hb hc (by omega) hone
    · exact val_modexpf_of_exp_one _ ha hb hc hone hmod
    · exact val_modexpf_of_base_zero _ ha hb hc (by omega) hmod hbase

end Sys2Proof.Machine

/-! The codes of a completion and its order with a host write (60_exceptions.md). -/

namespace Sys2Proof.Machine

/-! ### One code per completion -/

/-- A completion reports the code of its result, whichever of the two kinds the result is. -/
theorem complete_completedWith (r : CmdResult) (s : State) : CompletedWith r.code s (complete r s) := by
  cases r with
  | ok x y => exact complete_ok x y s
  | error e => exact complete_error e s

/-- Settles O16: the completion reports the code of the pending word's result, and a result with an error writes nothing. -/
theorem completionReportsOneCode : Obligations.CompletionReportsOneCode := by
  intro s hp hc
  have hcomp := complete_completedWith (pendingResult s.blk) (popTurn s)
  refine ⟨_, step_completes hp hc, pendingResult_code s.blk ▸ hcomp, fun herr => commit_results_of_code s.blk ?_⟩
  rwa [hcomp.err] at herr

/-! ### A host write on either side of the completion -/

/-- A dropped write and the completion commute: the result depends on no field that the drop changes (R305). -/
theorem commit_dropWrite (b : Block) :
    commit (pendingResult (dropWrite b)) (dropWrite b) = dropWrite (commit (pendingResult b) b) := by
  have hresult : pendingResult (dropWrite b) = pendingResult b := rfl
  rw [hresult]
  cases pendingResult b <;> rfl

section

variable {s : State} {a : Access} {reg : Reg} {v : Word} {rest : List Turn}

/-- The completion and then a host write: the write finds the completed block, which is idle. -/
theorem run_completion_write (hp : s.cfg.wellFormed = true) (hb : s.blk.seq = .busy)
    (hn : s.turns = .sequencer :: .access a :: rest) (hk : a.kind = .write v) (hr : accessReg s.cfg a = some reg) :
    Host.Core.run Sys2Proof.core 2 s = .next (afterAccess (complete (pendingResult s.blk) (popTurn s)) a rest .ack
      (writeReg v (complete (pendingResult s.blk) (popTurn s)).blk reg)) := by
  have hcomplete := step_completes hp ⟨.inr ⟨_, hn⟩, hb⟩
  have hnext : accessNext (complete (pendingResult s.blk) (popTurn s)) a rest := congrArg List.tail hn
  exact (run_succ 1 hcomplete).trans (run_succ 0 (step_write_reg hp hnext hr hk))

/-- A host write that is dropped and then the completion. -/
theorem run_dropWrite_completion (hp : s.cfg.wellFormed = true) (hb : s.blk.seq = .busy)
    (hn : accessNext s a (.sequencer :: rest)) (hk : a.kind = .write v) (hr : accessReg s.cfg a = some reg)
    (hd : isDroppable reg = true) :
    Host.Core.run Sys2Proof.core 2 s = .next (complete (pendingResult (dropWrite s.blk))
      (popTurn (afterAccess s a (.sequencer :: rest) .ack (dropWrite s.blk)))) := by
  have hdrop := step_write_reg hp hn hr hk
  rw [writeReg_dropped hd hb] at hdrop
  have hcomplete := step_completes (s := afterAccess s a (.sequencer :: rest) .ack (dropWrite s.blk)) hp
    ⟨.inr ⟨rest, rfl⟩, hb⟩
  exact (run_succ 1 hdrop).trans (run_succ 0 hcomplete)

end

/-- Settles O26: the idle block after the completion takes the word, the busy one before it drops the write, and the drop
commutes with the completion. -/
theorem bothOrdersOfWriteAndCompletion : Obligations.BothOrdersOfWriteAndCompletion := by
  intro s a v i rest hi hb hk hr
  have hfirst := run_completion_write (s := { s with turns := .sequencer :: .access a :: rest }) hi.params hb rfl hk hr
  have hafter := run_dropWrite_completion (s := { s with turns := .access a :: .sequencer :: rest }) hi.params hb rfl hk
    hr rfl
  refine ⟨_, _, hfirst, hafter, ?_⟩
  simp [writeReg, isBusy_of_idle, commit_dropWrite]

end Sys2Proof.Machine

/-! The reset step beside the block (70_reset_and_hazards.md). -/

namespace Sys2Proof.Machine

/-- A step that takes a reset turn answers the reset block's state and no other. -/
theorem eq_resetBlock_of_step {s t : State} {rest : List Turn} (ht : s.turns = .reset :: rest) (h : step s = .next t) :
    t = resetBlock (popTurn s) := by
  have hreset := step_reset (step_next_params h) ht
  exact Host.Outcome.next.inj (h.symm.trans hreset)

/-- Settles O28: the reset step takes its turn off the schedule, and resetting the block touches nothing beside it. -/
theorem resetKeepsTheHosts : Obligations.ResetKeepsTheHosts := by
  intro s t rest ht h
  obtain rfl := eq_resetBlock_of_step ht h
  refine ⟨resetBlock_cfg _, ?_, resetBlock_responses _⟩
  simp [ht]

end Sys2Proof.Machine
